-- ==== Sys2Proof/Word.lean ====
section
/-! DEFINITION. The machine's data types: the 16-bit word, the 8-bit cell address, the register index
(00_scope.md R4, R5). -/

namespace Sys2Proof

/-- "Word: a 16-bit unsigned value, the machine's native data unit" (R4). -/
abbrev Word := BitVec 16

/-- A cell number, 0x00 to 0xFF (R30); also the width of `pc` (R15) and of the `address` field (R51). -/
abbrev Addr := BitVec 8

/-- The index of one of the sixteen general registers (R11). -/
abbrev RegIdx := Fin 16

/-- `zext_16(v)`: eight zero bits above an 8-bit value (R5). -/
def zext16 (a : Addr) : Word := a.setWidth 16

/-- `v[7:0]`: the low eight bits of a word (R5). -/
def lowByte (v : Word) : Addr := v.setWidth 8

end Sys2Proof
end

