-- ==== Sys2Proof/Config.lean ====
section
/-! DEFINITION. The sizes the spec fixes (00_scope.md R4). "Every size of the machine is fixed by the source; none is
left to an implementation"; no value of this machine is left open, so there is no free value here. -/

namespace Sys2Proof.Config

/-- `MEMSIZE`: cells 0x00 to 0xFF. -/
def memSize : Nat := 256

/-- `IOADDR`: the cell through which the trap coordinator moves words. -/
def ioAddr : Addr := 0xFF

/-- `IOADDR` as the whole 16-bit value that the trap checks compare with (R153). -/
def ioWord : Word := 0x00FF

/-- The greatest 16-bit value that names a cell (R37). -/
def maxCell : Word := 0x00FF

/-- What a cell holds after creation and RESET (R25). -/
def resetCell : Word := 0x0000

end Sys2Proof.Config
end

