-- ==== Sys2Proof/Machine/State.lean ====
section
/-! DEFINITION. The machine's state as plain data, what stops a step, and the state after reset (10_state.md R10, R22, R25;
60_exceptions.md R161). -/

namespace Sys2Proof.Machine

/-- Memory: pairs of a cell number and the 16-bit word it holds, listing only the cells that differ from their reset
content (20_memory.md R30). A cell is one whole word, because "a model must represent a cell as one 16-bit value and
must not split it into bytes" (R32, log 1). -/
abbrev Memory := List (Nat × Word)

/-- The four items of the CORE (R10) and, beside them, the external word stream that a step reads and writes (R22). -/
structure State where
  /-- The program counter, 8 bits (R15). -/
  pc      : Addr
  /-- `x[0]` to `x[15]` (R11); `x[0]` is a storage cell that normalisation clears (R12). -/
  regs    : Vector Word 16
  /-- `M[0x00]` to `M[0xFF]` (R20). -/
  mem     : Memory
  /-- 1 is Running, 0 is Halted (R19). -/
  running : Bool
  /-- `IN`, the queue of pending input words, head first (R22). -/
  input   : List Word
  /-- `OUT`, the log of output words, oldest first (R22). -/
  output  : List Word
deriving DecidableEq, Repr

/-- The error conditions a step can report (R161). `DecodeError` is unreachable and has no outcome (R163, log 23). A fault
carries no state, since a failing step changes none (R83, log 4). -/
inductive Fault where
  /-- A read transfer with `IN` empty (R162): raised by Load and LoadIndirect of 0xFF. The machine reports it itself: safe. -/
  | inputExhausted
  /-- An indirect address above 0x00FF, with the offending value (R164, D4, log 6): raised by LoadIndirect and StoreIndirect.
  Safe: if the hardware drops the high byte instead, the model stops where the hardware goes on. -/
  | outOfRange (value : Word)
deriving DecidableEq, Repr

/-- Why an instruction has no meaning. -/
inductive Refusal where
  /-- An arm of `exec` not yet modelled. No arm raises it: all sixteen instructions have a meaning. Safe. -/
  | notModelled (mnemonic : String)
deriving DecidableEq, Repr

/-- What a step of the model answers. -/
abbrev Result := Host.Outcome State Fault Refusal

/-- The state after creation: every item zero, Halted (R25, R180). The spec gives `IN` and `OUT` no creation value; the
model starts them empty (DESIGN CHOICE, log 2, unsafe). -/
def State.reset : State where
  pc      := 0x00
  regs    := Vector.replicate 16 0x0000
  mem     := []
  running := false
  input   := []
  output  := []

end Sys2Proof.Machine
end

