-- ==== Sys2Proof/Machine/Ops.lean ====
section
/-! DEFINITION. The named operations over memory, registers, `pc` and the word stream, and the one way a step fails
(00_scope.md R5, 10_state.md, 20_memory.md, 50_interfaces.md R141, R142, 60_exceptions.md R160). -/

namespace Sys2Proof.Machine

/-- The canonical form: cell numbers strictly rising, all below 256, and no cell listed at its reset content. -/
abbrev Memory.wf (m : Memory) : Prop :=
  m.Pairwise (fun c e => c.1 < e.1) ∧ ∀ c ∈ m, c.1 < Config.memSize ∧ c.2 ≠ Config.resetCell

/-- The content of a cell; an unlisted cell holds its reset content (R25). -/
def Memory.read : Memory → Nat → Word
  | [], _ => Config.resetCell
  | (b, u) :: m, a => if a = b then u else Memory.read m a

/-- The memory with one cell replaced, in canonical form: a cell set to its reset content is not listed. -/
def Memory.write : Memory → Nat → Word → Memory
  | [], a, v => if v = Config.resetCell then [] else [(a, v)]
  | (b, u) :: m, a, v =>
    if a < b then
      if v = Config.resetCell then (b, u) :: m else (a, v) :: (b, u) :: m
    else if a = b then
      if v = Config.resetCell then m else (a, v) :: m
    else (b, u) :: Memory.write m a v

/-- `MemRead(a, 1)` (R5): a read has no side effect at any address (R35). -/
def State.memRead (s : State) (a : Addr) : Word := s.mem.read a.toNat

/-- `MemWrite(a, 1, v)` (R5): one whole word (R34). -/
def State.memWrite (s : State) (a : Addr) (v : Word) : State := { s with mem := s.mem.write a.toNat v }

/-- `x[i]` (R5): the stored value, for register 0 too (R12). -/
def State.reg (s : State) (i : RegIdx) : Word := s.regs[i]

/-- `x[i] <- v` (R5). -/
def State.setReg (s : State) (i : RegIdx) (v : Word) : State := { s with regs := s.regs.set i v }

/-- `pc <- target` (R5). -/
def State.setPc (s : State) (a : Addr) : State := { s with pc := a }

/-- `pc <- (p + 1) mod 256` (R74): 0xFF wraps to 0x00 (R17). -/
def State.advancePc (s : State) : State := s.setPc (BitVec.ofNat 8 ((s.pc.toNat + 1) % 256))

/-- `running <- b` (R19). -/
def State.setRunning (s : State) (b : Bool) : State := { s with running := b }

/-- `next_input()` (R141): removes and returns the head of `IN`; `none` is `InputExhausted`, with nothing changed. -/
def State.nextInput (s : State) : Option (Word × State) :=
  match s.input with
  | [] => none
  | v :: rest => some (v, { s with input := rest })

/-- `emit_output(v)` (R142): appends `v` to the end of `OUT`; it cannot fail. -/
def State.emitOutput (s : State) (v : Word) : State := { s with output := s.output ++ [v] }

/-- `x[0] <- 0x0000`, the normalisation after every non-halting instruction (R12, R80). The other two assignments of R80, the
masks of `x[d]` and `pc`, change nothing in registers of these widths (C11, log 22). -/
def State.normalise (s : State) : State := s.setReg 0 0x0000

/-- `raise E` (R160): the step ends at once, keeps none of its effects and reports the condition. Control goes nowhere: no
handler, vector, saved `pc` or cause register exists. There is no return instruction either (R168); the requester, who still
holds the state from before the step, repeats the request (`stepRequest`, HostOps.lean). -/
def raise (e : Fault) : Result := .fault e

end Sys2Proof.Machine
end

