-- ==== Sys2Proof/Syntax.lean ====
section
/-! DEFINITION. The instructions: one constructor for each row of spec/opcode_table.json, with the fields its operand
class makes meaningful (30_encoding.md R51, R52, R54), and the decoder's intermediate record of five fields. -/

namespace Sys2Proof

/-- The "closed enumeration of exactly 16 tags" (R54), in the enumeration's order. -/
inductive OpCode where
  | halt | add | subtract | and | xor | shiftLeft | shiftRight | loadAddress
  | load | store | loadIndirect | storeIndirect | branchZero | branchPositive | jumpRegister | jumpAndLink
deriving DecidableEq, Repr

/-- The operand classes N, R, R (indirect), A and D (R52). -/
inductive OperandClass where
  | n | r | rIndirect | a | d
deriving DecidableEq, Repr

/-- "(op, d, s, t, address)": what the decoder extracts from every word, whatever its opcode (R51, R53). -/
structure Fields where
  op      : OpCode
  d       : RegIdx
  s       : RegIdx
  t       : RegIdx
  address : Addr
deriving DecidableEq, Repr

/-- The sixteen instructions with their meaningful operands (R52, R54). The bits a class ignores are no part of the
instruction (R56, log 21). -/
inductive Instr where
  /-- 0x0, class N (R90). -/
  | halt
  /-- 0x1, class R (R101). -/
  | add (d s t : RegIdx)
  /-- 0x2, class R (R102). -/
  | subtract (d s t : RegIdx)
  /-- 0x3, class R (R103). -/
  | and (d s t : RegIdx)
  /-- 0x4, class R (R104). -/
  | xor (d s t : RegIdx)
  /-- 0x5, class R (R105). -/
  | shiftLeft (d s t : RegIdx)
  /-- 0x6, class R (R106). -/
  | shiftRight (d s t : RegIdx)
  /-- 0x7, class A (R110). -/
  | loadAddress (d : RegIdx) (address : Addr)
  /-- 0x8, class A (R111). -/
  | load (d : RegIdx) (address : Addr)
  /-- 0x9, class A; `d` is the source (R112). -/
  | store (d : RegIdx) (address : Addr)
  /-- 0xA, class R (indirect) (R113). -/
  | loadIndirect (d t : RegIdx)
  /-- 0xB, class R (indirect); `d` is the source (R114). -/
  | storeIndirect (d t : RegIdx)
  /-- 0xC, class A; `d` is tested (R120). -/
  | branchZero (d : RegIdx) (address : Addr)
  /-- 0xD, class A; `d` is tested (R121). -/
  | branchPositive (d : RegIdx) (address : Addr)
  /-- 0xE, class D; `d` holds the target (R122). -/
  | jumpRegister (d : RegIdx)
  /-- 0xF, class A; `d` is the link register (R123). -/
  | jumpAndLink (d : RegIdx) (address : Addr)
deriving DecidableEq, Repr

/-- The operand class the opcode selects (R52). -/
def OpCode.operandClass : OpCode → OperandClass
  | .halt => .n
  | .add | .subtract | .and | .xor | .shiftLeft | .shiftRight => .r
  | .loadIndirect | .storeIndirect => .rIndirect
  | .loadAddress | .load | .store | .branchZero | .branchPositive | .jumpAndLink => .a
  | .jumpRegister => .d

/-- The tag of an instruction. -/
def Instr.opCode : Instr → OpCode
  | .halt => .halt
  | .add _ _ _ => .add
  | .subtract _ _ _ => .subtract
  | .and _ _ _ => .and
  | .xor _ _ _ => .xor
  | .shiftLeft _ _ _ => .shiftLeft
  | .shiftRight _ _ _ => .shiftRight
  | .loadAddress _ _ => .loadAddress
  | .load _ _ => .load
  | .store _ _ => .store
  | .loadIndirect _ _ => .loadIndirect
  | .storeIndirect _ _ => .storeIndirect
  | .branchZero _ _ => .branchZero
  | .branchPositive _ _ => .branchPositive
  | .jumpRegister _ => .jumpRegister
  | .jumpAndLink _ _ => .jumpAndLink

end Sys2Proof
end

