-- ==== Sys2Proof/Machine/Operands.lean ====
section
/-! DEFINITION. The operand forms: register, 8-bit immediate, and the two addressing modes, absolute and register indirect
(30_encoding.md R55, 43_load_store.md R115). -/

namespace Sys2Proof.Machine

/-- Which way an instruction moves a word between `x[d]` and memory. -/
inductive AccessKind where
  | read | write
deriving DecidableEq, Repr

/-- "The machine has two addressing modes for data and no others" (R115). -/
inductive AddrMode where
  | absolute (address : Addr)
  | indirect (t : RegIdx)
deriving DecidableEq, Repr

/-- An instruction's data access: its kind and its effective address, still as a whole 16-bit value (R153). -/
structure Access where
  kind    : AccessKind
  address : Word
deriving DecidableEq, Repr

/-- The effective address: "the field or the register value itself" (R115). -/
def AddrMode.effective (m : AddrMode) (s : State) : Word :=
  match m with
  | .absolute a => zext16 a
  | .indirect t => s.reg t

/-- The addressing table (R115): the kind and the mode of each instruction's data access. -/
def accessMode : Instr → Option (AccessKind × AddrMode)
  | .halt => none
  | .add _ _ _ => none
  | .subtract _ _ _ => none
  | .and _ _ _ => none
  | .xor _ _ _ => none
  | .shiftLeft _ _ _ => none
  | .shiftRight _ _ _ => none
  | .loadAddress _ _ => none
  | .load _ a => some (.read, .absolute a)
  | .store _ a => some (.write, .absolute a)
  | .loadIndirect _ t => some (.read, .indirect t)
  | .storeIndirect _ t => some (.write, .indirect t)
  | .branchZero _ _ => none
  | .branchPositive _ _ => none
  | .jumpRegister _ => none
  | .jumpAndLink _ _ => none

/-- The instruction's access with the snapshot `tv` of the register, taken before the execute phase (R76, R153). -/
def access (i : Instr) (s : State) : Option Access :=
  (accessMode i).map fun (kind, mode) => ⟨kind, mode.effective s⟩

/-- The cell that an effective address names. Used only of addresses up to 0x00FF, which is what `addressCheck` (Trap.lean)
lets through; no high bit is dropped (R37). -/
def cellOf (v : Word) : Addr := lowByte v

/-- The cell that a Load or Store family instruction accesses in the execute phase (R111 to R114). -/
def AddrMode.cell (m : AddrMode) (s : State) : Addr := cellOf (m.effective s)

end Sys2Proof.Machine
end

