-- ==== Sys2Proof/Machine/Trap.lean ====
section
/-! DEFINITION. The phases of a step that are common to all instructions, from the register snapshot to the controller's
transition: the address check, the I/O trap coordinator's two checks and the order of the phases (40_step_cycle.md R71, R76 to
R82; 60_exceptions.md R150 to R156, R164). "Address 0xFF is ordinary memory to the Executor"; only this file treats it
otherwise. -/

namespace Sys2Proof.Machine

/-- The address check (R77, R164; D4, log 6). An absolute address has 8 bits and always passes (R37). -/
def addressCheck (acc : Option Access) : Option Fault :=
  match acc with
  | none => none
  | some ⟨_, a⟩ => if Config.maxCell < a then some (.outOfRange a) else none

/-- "Pull exactly one word from the external input stream ... and write it to `M[0xFF]`" (R151). -/
def readTransfer (s : State) : Except Fault State :=
  match s.nextInput with
  | none => .error .inputExhausted
  | some (v, s') => .ok (s'.memWrite Config.ioAddr v)

/-- "Read `M[0xFF]` ... and append it to the external output stream" (R152). -/
def writeTransfer (s : State) : State := s.emitOutput (s.memRead Config.ioAddr)

/-- The pre-execute check (R78, R151): a read whose whole 16-bit address is 0x00FF. -/
def preTrap (acc : Option Access) (s : State) : Except Fault State :=
  match acc with
  | none => .ok s
  | some ⟨.read, a⟩ => if a = Config.ioWord then readTransfer s else .ok s
  | some ⟨.write, _⟩ => .ok s

/-- The post-execute check (R81, R152): a write whose whole 16-bit address, as it was before the execute phase, is 0x00FF
(R153). -/
def postTrap (acc : Option Access) (s : State) : State :=
  match acc with
  | none => s
  | some ⟨.read, _⟩ => s
  | some ⟨.write, a⟩ => if a = Config.ioWord then writeTransfer s else s

/-- What the executor hands back: the state, and `continue`, "false for Halt and true for every other opcode" (R79). -/
abbrev Executed := State × Bool

/-- Phases 7 to 9 (R71): normalisation (R80) and the post-execute check (R81) only if the executor continues, then the
controller's transition (R82). -/
def finish (acc : Option Access) (e : Executed) : State :=
  match e with
  | (s, true) => postTrap acc s.normalise
  | (s, false) => s.setRunning false

/-- Phases 4 to 9 of a step (R71) around the executor's rule for `i`. The state given is the one after fetch and the default
advance, so `pc` holds `(p + 1) mod 256` (R74, log 22). -/
def cycle (i : Instr) (execute : State → Executed) (s : State) : Result :=
  match addressCheck (access i s) with
  | some e => raise e
  | none =>
    match preTrap (access i s) s with
    | .error e => raise e
    | .ok s' => .next (finish (access i s) (execute s'))

end Sys2Proof.Machine
end

