-- ==== Sys2Proof/Machine/Alu.lean ====
section
/-! DEFINITION. The six ALU instructions (42_alu.md). -/

namespace Sys2Proof.Machine

/-- `(x[s] + x[t]) mod 0x10000` (R101). -/
def aluAdd (a b : Word) : Word := BitVec.ofNat 16 (a.toNat + b.toNat)

/-- "(signed16)R[s] - (signed16)R[t], reinterpreted unsigned" (R102). -/
def aluSubtract (a b : Word) : Word := BitVec.ofInt 16 (a.toInt - b.toInt)

/-- `x[s] & x[t]` (R103). -/
def aluAnd (a b : Word) : Word := a &&& b

/-- `x[s] ^ x[t]` (R104). -/
def aluXor (a b : Word) : Word := a ^^^ b

/-- `(x[s] * 2^n) mod 0x10000` with `n` the whole of `x[t]` (R105); 0 for `n >= 16` (D7, log 8). -/
def aluShiftLeft (a n : Word) : Word := BitVec.ofNat 16 (a.toNat <<< n.toNat)

/-- `floor(x[s] / 2^n)` with `n` the whole of `x[t]` (R106): zeros enter at bit 15 (D6, log 7); 0 for `n >= 16` (D7, log 8). -/
def aluShiftRight (a n : Word) : Word := BitVec.ofNat 16 (a.toNat >>> n.toNat)

/-- The shape the six share (R100): both sources are read before the destination is written (R109). -/
def applyAlu (f : Word → Word → Word) (d x y : RegIdx) (s : State) : Executed :=
  (s.setReg d (f (s.reg x) (s.reg y)), true)

/-- Add (R101). -/
def execAdd (d x y : RegIdx) (s : State) : Result := cycle (.add d x y) (applyAlu aluAdd d x y) s

/-- Subtract (R102). -/
def execSubtract (d x y : RegIdx) (s : State) : Result := cycle (.subtract d x y) (applyAlu aluSubtract d x y) s

/-- And (R103). -/
def execAnd (d x y : RegIdx) (s : State) : Result := cycle (.and d x y) (applyAlu aluAnd d x y) s

/-- Xor (R104). -/
def execXor (d x y : RegIdx) (s : State) : Result := cycle (.xor d x y) (applyAlu aluXor d x y) s

/-- ShiftLeft (R105). -/
def execShiftLeft (d x y : RegIdx) (s : State) : Result := cycle (.shiftLeft d x y) (applyAlu aluShiftLeft d x y) s

/-- ShiftRight (R106). -/
def execShiftRight (d x y : RegIdx) (s : State) : Result := cycle (.shiftRight d x y) (applyAlu aluShiftRight d x y) s

end Sys2Proof.Machine
end

