-- ==== Sys2Proof/Machine/Flags.lean ====
section
/-! DEFINITION. "The machine has no status flags and no condition codes" (10_state.md R18). What it has instead are the two
conditions that the branches compute from a register at the moment they execute (44_control.md R120, R121). -/

namespace Sys2Proof.Machine

/-- `x[d] == 0x0000`: all 16 bits are tested (R120). -/
def isZero (v : Word) : Bool := v == 0x0000

/-- `x[d] > 0`, read as unsigned (R121, D24, log 20): true of 0x8000 to 0xFFFF too. -/
def isPositive (v : Word) : Bool := 0 < v.toNat

end Sys2Proof.Machine
end

