-- ==== Sys2Proof/Machine/Control.lean ====
section
/-! DEFINITION. BranchZero, BranchPositive, JumpRegister, JumpAndLink (44_control.md). Targets are absolute (R124); an untaken
branch leaves the default advance. -/

namespace Sys2Proof.Machine

/-- `if cond(x[d]) then pc <- I.address` (R120, R121). -/
def applyBranch (cond : Word → Bool) (d : RegIdx) (a : Addr) (s : State) : Executed :=
  (if cond (s.reg d) then s.setPc a else s, true)

/-- `pc <- x[d][7:0]` (R122): here the source masks explicitly. -/
def applyJumpRegister (d : RegIdx) (s : State) : Executed := (s.setPc (lowByte (s.reg d)), true)

/-- `x[d] <- zext_16(pc)`, with `pc` already advanced (D8, log 9), then `pc <- I.address` (R123). -/
def applyJumpAndLink (d : RegIdx) (a : Addr) (s : State) : Executed := ((s.setReg d (zext16 s.pc)).setPc a, true)

/-- BranchZero (R120). -/
def execBranchZero (d : RegIdx) (a : Addr) (s : State) : Result := cycle (.branchZero d a) (applyBranch isZero d a) s

/-- BranchPositive (R121, D24, log 20). -/
def execBranchPositive (d : RegIdx) (a : Addr) (s : State) : Result :=
  cycle (.branchPositive d a) (applyBranch isPositive d a) s

/-- JumpRegister (R122). -/
def execJumpRegister (d : RegIdx) (s : State) : Result := cycle (.jumpRegister d) (applyJumpRegister d) s

/-- JumpAndLink (R123). -/
def execJumpAndLink (d : RegIdx) (a : Addr) (s : State) : Result := cycle (.jumpAndLink d a) (applyJumpAndLink d a) s

end Sys2Proof.Machine
end

