-- ==== Sys2Proof/Machine/Halt.lean ====
section
/-! DEFINITION. Halt (41_halt.md). -/

namespace Sys2Proof.Machine

/-- "Return false; no state change" (R90). -/
def applyHalt (s : State) : Executed := (s, false)

/-- Halt (R90): `pc` keeps the default advance (D3, log 5), no normalisation, no transfer, `running <- 0`. -/
def execHalt (s : State) : Result := cycle .halt applyHalt s

end Sys2Proof.Machine
end

