-- ==== Sys2Proof/Machine/LoadStore.lean ====
section
/-! DEFINITION. LoadAddress, Load, Store, LoadIndirect, StoreIndirect (43_load_store.md). The executor's rules treat 0xFF as
ordinary memory; `cycle` adds the transfers. -/

namespace Sys2Proof.Machine

/-- `x[d] <- zext_16(I.address)` (R110): no memory access. -/
def applyLoadAddress (d : RegIdx) (a : Addr) (s : State) : Executed := (s.setReg d (zext16 a), true)

/-- `x[d] <- MemRead(ea, 1)` (R111, R113). -/
def applyLoad (d : RegIdx) (m : AddrMode) (s : State) : Executed := (s.setReg d (s.memRead (m.cell s)), true)

/-- `MemWrite(ea, 1, x[d])` (R112, R114). -/
def applyStore (d : RegIdx) (m : AddrMode) (s : State) : Executed := (s.memWrite (m.cell s) (s.reg d), true)

/-- LoadAddress (R110). -/
def execLoadAddress (d : RegIdx) (a : Addr) (s : State) : Result := cycle (.loadAddress d a) (applyLoadAddress d a) s

/-- Load (R111); of 0xFF, after the read transfer (R151). -/
def execLoad (d : RegIdx) (a : Addr) (s : State) : Result := cycle (.load d a) (applyLoad d (.absolute a)) s

/-- Store (R112); to 0xFF, before the write transfer (R152). -/
def execStore (d : RegIdx) (a : Addr) (s : State) : Result := cycle (.store d a) (applyStore d (.absolute a)) s

/-- LoadIndirect (R113); `OutOfRange` when `x[t] > 0x00FF` (R164, log 6). -/
def execLoadIndirect (d t : RegIdx) (s : State) : Result := cycle (.loadIndirect d t) (applyLoad d (.indirect t)) s

/-- StoreIndirect (R114); `OutOfRange` when `x[t] > 0x00FF` (R164, log 6). -/
def execStoreIndirect (d t : RegIdx) (s : State) : Result := cycle (.storeIndirect d t) (applyStore d (.indirect t)) s

end Sys2Proof.Machine
end

