-- ==== Sys2Proof/Machine/Dispatch.lean ====
section
/-! DEFINITION. One arm for each instruction (30_encoding.md R54, 40_step_cycle.md R79). -/

namespace Sys2Proof.Machine

def exec (i : Instr) (s : State) : Host.Outcome State Fault Refusal :=
  match i with
  | .halt => Sys2Proof.Machine.execHalt s
  | .add d x y => Sys2Proof.Machine.execAdd d x y s
  | .subtract d x y => Sys2Proof.Machine.execSubtract d x y s
  | .and d x y => Sys2Proof.Machine.execAnd d x y s
  | .xor d x y => Sys2Proof.Machine.execXor d x y s
  | .shiftLeft d x y => Sys2Proof.Machine.execShiftLeft d x y s
  | .shiftRight d x y => Sys2Proof.Machine.execShiftRight d x y s
  | .loadAddress d a => Sys2Proof.Machine.execLoadAddress d a s
  | .load d a => Sys2Proof.Machine.execLoad d a s
  | .store d a => Sys2Proof.Machine.execStore d a s
  | .loadIndirect d t => Sys2Proof.Machine.execLoadIndirect d t s
  | .storeIndirect d t => Sys2Proof.Machine.execStoreIndirect d t s
  | .branchZero d a => Sys2Proof.Machine.execBranchZero d a s
  | .branchPositive d a => Sys2Proof.Machine.execBranchPositive d a s
  | .jumpRegister d => Sys2Proof.Machine.execJumpRegister d s
  | .jumpAndLink d a => Sys2Proof.Machine.execJumpAndLink d a s

end Sys2Proof.Machine
end

