-- ==== Sys2Proof/WellFormed.lean ====
section
/-! DEFINITION. What is well formed. The types of Syntax.lean already bound every operand (a register index is a `Fin 16`,
an address has 8 bits) and there is no illegal or reserved encoding (30_encoding.md R57), so what is left to check is: that
a record of five fields agrees with itself (R51), and that raw numbers handed over by the host lie in the types of the host
operations (50_interfaces.md R133, R134, R135, R141). -/

namespace Sys2Proof

/-- "The `address` field overlaps `s` and `t`: `address = s * 16 + t`" (R51). -/
def Fields.wf (f : Fields) : Bool := f.address.toNat == f.s.val * 16 + f.t.val

/-- The instruction's operands as the canonical record of five fields, ignored bits 0 (R52, R56, R59). -/
def Instr.fields : Instr → Fields
  | .halt => ⟨.halt, 0, 0, 0, 0⟩
  | .add d s t => ofRegs .add d s t
  | .subtract d s t => ofRegs .subtract d s t
  | .and d s t => ofRegs .and d s t
  | .xor d s t => ofRegs .xor d s t
  | .shiftLeft d s t => ofRegs .shiftLeft d s t
  | .shiftRight d s t => ofRegs .shiftRight d s t
  | .loadAddress d a => ofAddress .loadAddress d a
  | .load d a => ofAddress .load d a
  | .store d a => ofAddress .store d a
  | .loadIndirect d t => ofRegs .loadIndirect d 0 t
  | .storeIndirect d t => ofRegs .storeIndirect d 0 t
  | .branchZero d a => ofAddress .branchZero d a
  | .branchPositive d a => ofAddress .branchPositive d a
  | .jumpRegister d => ofRegs .jumpRegister d 0 0
  | .jumpAndLink d a => ofAddress .jumpAndLink d a
where
  /-- The register layout: `address` is `s` and `t` read together (R51). -/
  ofRegs (op : OpCode) (d s t : RegIdx) : Fields :=
    ⟨op, d, s, t, BitVec.ofNat 8 (s.val * 16 + t.val)⟩
  /-- The address layout: `s` and `t` are the digits of `address` (R51). -/
  ofAddress (op : OpCode) (d : RegIdx) (a : Addr) : Fields :=
    ⟨op, d, (BitVec.extractLsb' 4 4 a).toFin, (BitVec.extractLsb' 0 4 a).toFin, a⟩

/-- An instruction is well formed when its fields are; every instruction is (Laws/Decode.lean, `Instr.wf_true`). -/
def Instr.wf (i : Instr) : Bool := i.fields.wf

/-- A register index as the host may give it: "indices above 15 are outside the operation's type" (R133). -/
def rawRegIdx? (i : Nat) : Option RegIdx :=
  if h : i < 16 then some ⟨i, h⟩ else none

/-- A word as the host or the stream may give it: values wider than 16 bits are outside the type (R133, R134, R141). -/
def rawWord? (v : Nat) : Option Word :=
  if v ≤ 0xFFFF then some (BitVec.ofNat 16 v) else none

/-- A cell address as the host may give it: "addresses above 255 ... are outside the operation's type" (R134). -/
def rawAddr? (a : Nat) : Option Addr :=
  if a ≤ 0xFF then some (BitVec.ofNat 8 a) else none

/-- One loader pair given as raw numbers; "a loader that could produce [others] must reject them itself" (R134). -/
def rawLoadPair? (p : Nat × Nat) : Option (Addr × Word) :=
  match rawAddr? p.1, rawWord? p.2 with
  | some a, some c => some (a, c)
  | _, _ => none

end Sys2Proof
end

