-- ==== Sys2Proof/Decode.lean ====
section
/-! DEFINITION. The decoder, "a total function from 16-bit words to instructions" (30_encoding.md R53), then the encoder. There
is no word to reject (R57, log 23). -/

namespace Sys2Proof

/-- The opcode map, by number (R54; the numbers 3 to 6, A and B rest on D20, log 17). -/
def OpCode.ofNumber (n : Fin 16) : OpCode :=
  match n with
  | ⟨0x0, _⟩ => .halt
  | ⟨0x1, _⟩ => .add
  | ⟨0x2, _⟩ => .subtract
  | ⟨0x3, _⟩ => .and
  | ⟨0x4, _⟩ => .xor
  | ⟨0x5, _⟩ => .shiftLeft
  | ⟨0x6, _⟩ => .shiftRight
  | ⟨0x7, _⟩ => .loadAddress
  | ⟨0x8, _⟩ => .load
  | ⟨0x9, _⟩ => .store
  | ⟨0xA, _⟩ => .loadIndirect
  | ⟨0xB, _⟩ => .storeIndirect
  | ⟨0xC, _⟩ => .branchZero
  | ⟨0xD, _⟩ => .branchPositive
  | ⟨0xE, _⟩ => .jumpRegister
  | ⟨0xF, _⟩ => .jumpAndLink
  | ⟨_ + 16, outside⟩ => absurd outside (by omega)

/-- "op = bits[15:12], d = bits[11:8], s = bits[7:4], t = bits[3:0], address = bits[7:0]" (R51). -/
def fieldsOf (w : Word) : Fields where
  op      := OpCode.ofNumber (BitVec.extractLsb' 12 4 w).toFin
  d       := (BitVec.extractLsb' 8 4 w).toFin
  s       := (BitVec.extractLsb' 4 4 w).toFin
  t       := (BitVec.extractLsb' 0 4 w).toFin
  address := BitVec.extractLsb' 0 8 w

/-- "Format selection by `op`": the fields the operand class makes meaningful (R52). -/
def instrOf (f : Fields) : Instr :=
  match f.op with
  | .halt => .halt
  | .add => .add f.d f.s f.t
  | .subtract => .subtract f.d f.s f.t
  | .and => .and f.d f.s f.t
  | .xor => .xor f.d f.s f.t
  | .shiftLeft => .shiftLeft f.d f.s f.t
  | .shiftRight => .shiftRight f.d f.s f.t
  | .loadAddress => .loadAddress f.d f.address
  | .load => .load f.d f.address
  | .store => .store f.d f.address
  | .loadIndirect => .loadIndirect f.d f.t
  | .storeIndirect => .storeIndirect f.d f.t
  | .branchZero => .branchZero f.d f.address
  | .branchPositive => .branchPositive f.d f.address
  | .jumpRegister => .jumpRegister f.d
  | .jumpAndLink => .jumpAndLink f.d f.address

/-- `Decode(w)` (R53). -/
def decode (w : Word) : Instr := instrOf (fieldsOf w)

/-- The number of a tag: its position in the enumeration, counted from 0 (R54). -/
def OpCode.number : OpCode → Fin 16
  | .halt => 0x0
  | .add => 0x1
  | .subtract => 0x2
  | .and => 0x3
  | .xor => 0x4
  | .shiftLeft => 0x5
  | .shiftRight => 0x6
  | .loadAddress => 0x7
  | .load => 0x8
  | .store => 0x9
  | .loadIndirect => 0xA
  | .storeIndirect => 0xB
  | .branchZero => 0xC
  | .branchPositive => 0xD
  | .jumpRegister => 0xE
  | .jumpAndLink => 0xF

/-- "`0x` `op` `d` `s` `t`, one digit each" (R51). -/
def digits (op d s t : Fin 16) : Word :=
  BitVec.ofNat 16 (op.val * 4096 + d.val * 256 + s.val * 16 + t.val)

/-- "`0x` `op` `d` `address`, with `address` the last two digits" (R51). -/
def digitsAddress (op d : Fin 16) (a : Addr) : Word :=
  BitVec.ofNat 16 (op.val * 4096 + d.val * 256 + a.toNat)

/-- The word of an instruction, ignored bits written as 0 (the table of R59; R56). -/
def encode : Instr → Word
  | .halt => digits OpCode.halt.number 0 0 0
  | .add d s t => digits OpCode.add.number d s t
  | .subtract d s t => digits OpCode.subtract.number d s t
  | .and d s t => digits OpCode.and.number d s t
  | .xor d s t => digits OpCode.xor.number d s t
  | .shiftLeft d s t => digits OpCode.shiftLeft.number d s t
  | .shiftRight d s t => digits OpCode.shiftRight.number d s t
  | .loadAddress d a => digitsAddress OpCode.loadAddress.number d a
  | .load d a => digitsAddress OpCode.load.number d a
  | .store d a => digitsAddress OpCode.store.number d a
  | .loadIndirect d t => digits OpCode.loadIndirect.number d 0 t
  | .storeIndirect d t => digits OpCode.storeIndirect.number d 0 t
  | .branchZero d a => digitsAddress OpCode.branchZero.number d a
  | .branchPositive d a => digitsAddress OpCode.branchPositive.number d a
  | .jumpRegister d => digits OpCode.jumpRegister.number d 0 0
  | .jumpAndLink d a => digitsAddress OpCode.jumpAndLink.number d a

/-- The bits of a word that its operand class does not ignore (R52, "ignored bits"; R56). -/
def OperandClass.meaningfulBits : OperandClass → Word
  | .n => 0xF000
  | .r => 0xFFFF
  | .rIndirect => 0xFF0F
  | .a => 0xFFFF
  | .d => 0xFF00

/-- The instruction word that the opcode table's numbering of bits lays out: bit 0 is the word's bit 0, bits above `nbits`
are 0, and an instruction is one word (R50). -/
def tableWord (nbits w : Nat) : Word := BitVec.ofNat 16 (w % 2 ^ nbits)

/-- The instruction the decoder reads from an instruction numbered as spec/opcode_table.json numbers it; it refuses none
(R57). -/
def decodeTableWord (nbits w : Nat) : Option Instr := some (decode (tableWord nbits w))

end Sys2Proof
end

