-- ==== Sys2Proof/Machine/Fetch.lean ====
section
/-! DEFINITION. Phases 1 to 3 of a step: fetch, default advance, decode (40_step_cycle.md R73 to R75). -/

namespace Sys2Proof.Machine

/-- `w = MemRead(p, 1)`: an ordinary memory read with no side effect at any address, 0xFF included (R73). -/
def fetch (s : State) : Word := s.memRead s.pc

/-- The instruction at `pc` (R73, R75). -/
def fetched (s : State) : Instr := decode (fetch s)

/-- What it takes for the next step to run the word `w`: the word in the cell `pc` names, and the flag without which no step
does anything (R72, R73; log 3). -/
def placeWord (s : State) (w : Word) : State := (s.memWrite s.pc w).setRunning true

end Sys2Proof.Machine
end

