-- ==== Sys2Proof/Machine/Step.lean ====
section
/-! DEFINITION. One step (40_step_cycle.md R71), and the placing of an instruction where the step fetches it. -/

namespace Sys2Proof.Machine

/-- One step request. While Halted it does nothing (R72, D9, log 10). While Running it fetches (R73), advances `pc` (R74),
decodes (R75) and goes through the remaining phases with the instruction's meaning (R76 to R82). -/
def step (s : State) : Host.Outcome State Fault Refusal :=
  if s.running then exec (fetched s) s.advancePc else .next s

/-- `s` with the instruction `w`, numbered as spec/opcode_table.json numbers its bits, where `step` fetches next (log 3). -/
def State.withFetchWord (s : State) (nbits w : Nat) : State := placeWord s (tableWord nbits w)

end Sys2Proof.Machine
end

