-- ==== Sys2Proof/Machine/HostOps.lean ====
section
/-! DEFINITION. The three boundaries of the CORE as transactions at step boundaries: the step request and its result, the run,
the host's operations and the stream owner's (50_interfaces.md R130 to R144, 40_step_cycle.md R85, R86). -/

namespace Sys2Proof.Machine

/-- What a step request reports (R85; the names are the spec's, D13, log 13). -/
inductive StepResult where
  | idle
  | continued
  | halted
  | failed (e : Fault)
  /-- Not one of the spec's results: it stands for an instruction without a meaning, and is never reported. -/
  | refused (r : Refusal)
deriving DecidableEq, Repr

/-- STEP (R137): one step, its result, and the state afterwards. A failing step leaves the state as it was (R83, R160; D2,
log 4), so that the same instruction is fetched again at the next request (R168). -/
def stepRequest (s : State) : StepResult × State :=
  if s.running then
    match step s with
    | .next s' => (if s'.running then .continued else .halted, s')
    | .fault e => (.failed e, s)
    | .refused r => (.refused r, s)
  else (.idle, s)

/-- RUN (R86, R137; D17), watched for at most `fuel` completed steps: the result RUN returns and the state it leaves, or no result
yet and the state reached (R172, log 16). -/
def runFor : Nat → State → Option StepResult × State
  | 0, s => if s.running then (none, s) else (some .idle, s)
  | fuel + 1, s =>
    match stepRequest s with
    | (.continued, s') => runFor fuel s'
    | (r, s') => (some r, s')

/-- RUN from `s` returns `r` and leaves `s'`. -/
def RunReturns (s : State) (r : StepResult) (s' : State) : Prop := ∃ fuel, runFor fuel s = (some r, s')

/-- RESET (R132; D11, log 12): the creation state; `IN` and `OUT` stay as they are (R182). -/
def hostReset (s : State) : State := { State.reset with input := s.input, output := s.output }

/-- SET_REG (R133): register 0 is ignored (D10, log 11). -/
def hostSetReg (s : State) (i : RegIdx) (v : Word) : State := if i = 0 then s else s.setReg i v

/-- LOAD (R134; D15, log 14): `MemWrite(a, 1, c)` for each pair in order, no transfer at 0xFF. -/
def hostLoad (s : State) (pairs : List (Addr × Word)) : State := pairs.foldl (fun s p => s.memWrite p.1 p.2) s

/-- What OBSERVE hands over (R138): "`pc`, `x[0..15]`, `M[0..255]`, `running`". -/
structure Observation where
  pc      : Addr
  regs    : Vector Word 16
  cells   : List Word
  running : Bool
deriving DecidableEq, Repr

/-- OBSERVE (R138; D21, log 18). -/
def hostObserve (s : State) : Observation where
  pc      := s.pc
  regs    := s.regs
  cells   := (List.range Config.memSize).map s.mem.read
  running := s.running

/-- Appending words to `IN` between steps, the stream owner's right (R144, log 18). -/
def supplyInput (s : State) (words : List Word) : State := { s with input := s.input ++ words }

/-- The host's operations (the table under R131). -/
inductive HostOp where
  | reset
  | setReg (i : RegIdx) (v : Word)
  | load (pairs : List (Addr × Word))
  | getPc
  | setPc (v : Addr)
  | setRunning (b : Bool)
  | getRunning
  | step
  /-- RUN, watched for at most `fuel` completed steps. -/
  | run (fuel : Nat)
  | observe
deriving DecidableEq, Repr

/-- What the owner of the external word stream does between steps (R144). -/
inductive StreamOp where
  | supply (words : List Word)
  | readOutput
deriving DecidableEq, Repr

/-- Everything that happens between the machine and the outside, each as a whole and at a step boundary (R130, R131). -/
inductive ExternalOp where
  | host (op : HostOp)
  | stream (op : StreamOp)
  /-- A RUN that has not returned goes on, watched for at most `fuel` further steps (R86, R172, log 16). -/
  | goOn (fuel : Nat)
deriving DecidableEq, Repr

/-- What an external operation answers (the column "result" of the table under R131). -/
inductive Reply where
  | none
  | pc (v : Addr)
  | running (b : Bool)
  | stepped (r : StepResult)
  /-- RUN's result, or none while it has not returned. -/
  | ran (r : Option StepResult)
  | observed (o : Observation)
  | output (words : List Word)
  /-- The operation cannot take place now, and nothing happens. -/
  | notIssued
deriving DecidableEq, Repr

/-- The effect and the answer of a host operation (R132 to R138). -/
def hostOp (op : HostOp) (s : State) : Reply × State :=
  match op with
  | .reset => (.none, hostReset s)
  | .setReg i v => (.none, hostSetReg s i v)
  | .load pairs => (.none, hostLoad s pairs)
  | .getPc => (.pc s.pc, s)
  | .setPc v => (.none, s.setPc v)
  | .setRunning b => (.none, s.setRunning b)
  | .getRunning => (.running s.running, s)
  | .step => (.stepped (stepRequest s).1, (stepRequest s).2)
  | .run fuel => (.ran (runFor fuel s).1, (runFor fuel s).2)
  | .observe => (.observed (hostObserve s), s)

/-- The effect and the answer of a stream operation (R144). -/
def streamOp (op : StreamOp) (s : State) : Reply × State :=
  match op with
  | .supply words => (.none, supplyInput s words)
  | .readOutput => (.output s.output, s)

/-- The machine as its host sees it. Whether a RUN has been requested and has not returned is no state of the machine, for which
RUN is only repeated steps (R86); it says which operations can be issued (R131). -/
structure Session where
  state : State
  inRun : Bool
deriving DecidableEq, Repr

/-- A session in which the host can issue any operation. -/
def Session.ready (s : State) : Session := ⟨s, false⟩

/-- The session after a host operation: RUN has not returned exactly if it has no result yet (R131, R137). -/
def Session.settle (a : Reply × State) : Reply × Session := (a.1, ⟨a.2, decide (a.1 = .ran none)⟩)

/-- The effect and the answer of an external operation. "During RUN the host can do nothing until RUN returns" (R131); the stream's
owner may act between any two steps (R144, log 18). -/
def externalOp (op : ExternalOp) (z : Session) : Reply × Session :=
  match op with
  | .host o => if z.inRun then (.notIssued, z) else Session.settle (hostOp o z.state)
  | .stream o => ((streamOp o z.state).1, { z with state := (streamOp o z.state).2 })
  | .goOn fuel => if z.inRun then Session.settle (hostOp (.run fuel) z.state) else (.notIssued, z)

/-- What a sequence of external operations leaves. -/
def session (ops : List ExternalOp) (z : Session) : Session := ops.foldl (fun z op => (externalOp op z).2) z

end Sys2Proof.Machine
end

