-- ==== Sys2Proof/Machine/Summary.lean ====
section
/-! DEFINITION. "The whole step as one function", transcribed line by line from 40_step_cycle.md section 6, over the decoder's five
fields and in plain word arithmetic. It is not what runs (Step.lean is); it is here so that a statement can compare the two. -/

namespace Sys2Proof.Machine

/-- `Execute(I)`: the one-line effects of the opcode map (R54). -/
def summaryExecute (f : Fields) (s : State) : State × Bool :=
  match f.op with
  | .halt => (s, false)
  | .add => (s.setReg f.d (s.reg f.s + s.reg f.t), true)
  | .subtract => (s.setReg f.d (s.reg f.s - s.reg f.t), true)
  | .and => (s.setReg f.d (s.reg f.s &&& s.reg f.t), true)
  | .xor => (s.setReg f.d (s.reg f.s ^^^ s.reg f.t), true)
  | .shiftLeft => (s.setReg f.d (s.reg f.s <<< s.reg f.t), true)
  | .shiftRight => (s.setReg f.d (s.reg f.s >>> s.reg f.t), true)
  | .loadAddress => (s.setReg f.d (zext16 f.address), true)
  | .load => (s.setReg f.d (s.memRead f.address), true)
  | .store => (s.memWrite f.address (s.reg f.d), true)
  | .loadIndirect => (s.setReg f.d (s.memRead (lowByte (s.reg f.t))), true)
  | .storeIndirect => (s.memWrite (lowByte (s.reg f.t)) (s.reg f.d), true)
  | .branchZero => (if s.reg f.d = 0x0000 then s.setPc f.address else s, true)
  | .branchPositive => (if s.reg f.d ≠ 0x0000 then s.setPc f.address else s, true)
  | .jumpRegister => (s.setPc (lowByte (s.reg f.d)), true)
  | .jumpAndLink => ((s.setReg f.d (zext16 s.pc)).setPc f.address, true)

/-- The lines from the default advance to the end, on the state after the pre-trap. -/
def summaryFinish (f : Fields) (p : Addr) (tv : Word) (s : State) : StepResult × State :=
  match summaryExecute f (s.setPc (p + 1)) with
  | (s, true) =>
    let s := s.setReg 0 0x0000
    if (f.op = .store ∧ f.address = 0xFF) ∨ (f.op = .storeIndirect ∧ tv = 0x00FF) then
      (.continued, { s with output := s.output ++ [s.memRead 0xFF] })
    else (.continued, s)
  | (s, false) => (.halted, { s with running := false })

/-- `Step()`. -/
def summaryStep (s : State) : StepResult × State :=
  if s.running = false then (.idle, s)
  else
    let p := s.pc
    let f := fieldsOf (s.memRead p)
    let tv := s.reg f.t
    if (f.op = .loadIndirect ∨ f.op = .storeIndirect) ∧ tv > 0x00FF then (.failed (.outOfRange tv), s)
    else if (f.op = .load ∧ f.address = 0xFF) ∨ (f.op = .loadIndirect ∧ tv = 0x00FF) then
      match s.input with
      | [] => (.failed .inputExhausted, s)
      | v :: rest => summaryFinish f p tv ({ s with input := rest }.memWrite 0xFF v)
    else summaryFinish f p tv s

end Sys2Proof.Machine
end

