-- ==== Sys2Proof/Safety.lean ====
section
/-! DEFINITION. The invariant of a step boundary, and the terms in which the statements say what an instruction changes and
leaves unchanged. -/

namespace Sys2Proof.Machine

/-- What holds at every step boundary: `x[0]` = 0x0000 (10_state.md R13) and memory in its canonical form (log 1). -/
structure State.Inv (s : State) : Prop where
  regZero : s.reg 0 = 0x0000
  memWf   : s.mem.wf

/-- A step that completes. -/
def Completes (s : State) : Prop := ∃ t, step s = .next t

/-- Every cell of memory reads as before. -/
def SameCells (s t : State) : Prop := ∀ a, t.memRead a = s.memRead a

/-- Every cell of memory but `a` reads as before, and `a` holds `v`. -/
def OneCell (a : Addr) (v : Word) (s t : State) : Prop :=
  t.memRead a = v ∧ ∀ b, b ≠ a → t.memRead b = s.memRead b

/-- The external word stream is as before. -/
def SameStream (s t : State) : Prop := t.input = s.input ∧ t.output = s.output

/-- The registers after a non-halting instruction that writes `x[d]`: `x[d]` holds `v`, unless `d` = 0, whose value is discarded;
`x[0]` is normalised; the others are as before (R12). -/
def OneReg (d : RegIdx) (v : Word) (s t : State) : Prop :=
  ∀ r, t.reg r = if r = 0 then 0x0000 else if r = d then v else s.reg r

/-- The registers after a non-halting instruction that writes none: only normalisation acts (R12). -/
def NoReg (s t : State) : Prop := ∀ r, t.reg r = if r = 0 then 0x0000 else s.reg r

/-- The whole effect of an instruction that writes `v` to `x[d]` and nothing else; `pc` keeps the value it had in the execute
phase. -/
structure WritesReg (d : RegIdx) (v : Word) (s t : State) : Prop where
  regs    : OneReg d v s t
  pc      : t.pc = s.pc
  cells   : SameCells s t
  running : t.running = s.running
  stream  : SameStream s t

/-- The whole effect of an instruction that sets `pc` to `target` and changes nothing else. -/
structure SetsPc (target : Addr) (s t : State) : Prop where
  regs    : NoReg s t
  pc      : t.pc = target
  cells   : SameCells s t
  running : t.running = s.running
  stream  : SameStream s t

/-- The whole effect of a load from the port that pulls `v` into `M[0xFF]` and `x[d]`, leaving `rest` in `IN`. -/
structure LoadsInput (d : RegIdx) (v : Word) (rest : List Word) (s t : State) : Prop where
  regs    : OneReg d v s t
  pc      : t.pc = s.pc
  cells   : OneCell 0xFF v s t
  running : t.running = s.running
  input   : t.input = rest
  output  : t.output = s.output

/-- The whole effect of a store of `v` to the cell `a`, which is emitted when `a` is the port. -/
structure StoresWord (a : Addr) (v : Word) (s t : State) : Prop where
  regs    : NoReg s t
  pc      : t.pc = s.pc
  cells   : OneCell a v s t
  running : t.running = s.running
  input   : t.input = s.input
  output  : t.output = if a = 0xFF then s.output ++ [v] else s.output

/-- The read transfer's trigger (60_exceptions.md R151). -/
def ReadsPort (i : Instr) (s : State) : Prop :=
  (∃ d, i = .load d 0xFF) ∨ ∃ d t, i = .loadIndirect d t ∧ s.reg t = 0x00FF

/-- The write transfer's trigger (60_exceptions.md R152). -/
def WritesPort (i : Instr) (s : State) : Prop :=
  (∃ d, i = .store d 0xFF) ∨ ∃ d t, i = .storeIndirect d t ∧ s.reg t = 0x00FF

/-- The cell that an instruction of the Store family stores to (43_load_store.md R115): computed as the executor computes it. -/
def StoresTo (i : Instr) (s : State) (a : Addr) : Prop :=
  ∃ m, accessMode i = some (.write, m) ∧ a = m.cell s

/-- Column "reads" of the register-use table (10_state.md R14). -/
def readsRegs : Instr → List RegIdx
  | .halt => []
  | .add _ s t => [s, t]
  | .subtract _ s t => [s, t]
  | .and _ s t => [s, t]
  | .xor _ s t => [s, t]
  | .shiftLeft _ s t => [s, t]
  | .shiftRight _ s t => [s, t]
  | .loadAddress _ _ => []
  | .load _ _ => []
  | .store d _ => [d]
  | .loadIndirect _ t => [t]
  | .storeIndirect d t => [d, t]
  | .branchZero d _ => [d]
  | .branchPositive d _ => [d]
  | .jumpRegister d => [d]
  | .jumpAndLink _ _ => []

/-- Column "writes" of the register-use table (10_state.md R14). -/
def writesRegs : Instr → List RegIdx
  | .halt => []
  | .add d _ _ => [d]
  | .subtract d _ _ => [d]
  | .and d _ _ => [d]
  | .xor d _ _ => [d]
  | .shiftLeft d _ _ => [d]
  | .shiftRight d _ _ => [d]
  | .loadAddress d _ => [d]
  | .load d _ => [d]
  | .store _ _ => []
  | .loadIndirect d _ => [d]
  | .storeIndirect _ _ => []
  | .branchZero _ _ => []
  | .branchPositive _ _ => []
  | .jumpRegister _ => []
  | .jumpAndLink d _ => [d]

/-- The `pc` at the end of a completed step that fetched `i` at `s.pc` (10_state.md R17, 44_control.md R120 to R123). -/
def nextPc (i : Instr) (s : State) : Addr :=
  match i with
  | .branchZero d a => if s.reg d = 0x0000 then a else s.pc + 1
  | .branchPositive d a => if s.reg d = 0x0000 then s.pc + 1 else a
  | .jumpRegister d => lowByte (s.reg d)
  | .jumpAndLink _ a => a
  | .halt | .add _ _ _ | .subtract _ _ _ | .and _ _ _ | .xor _ _ _ | .shiftLeft _ _ _ | .shiftRight _ _ _
  | .loadAddress _ _ | .load _ _ | .store _ _ | .loadIndirect _ _ | .storeIndirect _ _ => s.pc + 1

end Sys2Proof.Machine
end

