-- ==== Sys2Proof/Certificates/Slice0/Obligations.lean ====
section
/-! DEFINITION. The statements for the provers. `s` is a state before and `t` one after; where a statement is about `exec`, `s` is the
state after fetch and the default advance, so that `s.pc` is `(p + 1) mod 256` (log 22). -/

open Sys2Proof Sys2Proof.Machine

/-! ## Encoding and decoding -/

/-- Words of 95_test_vectors.md (2.1 to 2.5), written there by hand, decode to the instructions they stand for. The opcode numbers 1
to 6, A and B rest on the spec's decision D20 (log 17), the ignored bits on D25 (log 21). -/
def Obligations.SpecWordsDecode : Prop :=
  decode 0x0FFF = .halt ∧ decode 0x1CCB = .add 0xC 0xC 0xB ∧ decode 0x5BA1 = .shiftLeft 0xB 0xA 0x1 ∧
  decode 0x7130 = .loadAddress 0x1 0x30 ∧ decode 0x9CFF = .store 0xC 0xFF ∧ decode 0xA6F5 = .loadIndirect 0x6 0x5 ∧
  decode 0xCA18 = .branchZero 0xA 0x18 ∧ decode 0xEFAB = .jumpRegister 0xF ∧ decode 0xFF30 = .jumpAndLink 0xF 0x30

/-- Decoding the word of an instruction gives the instruction back, every operand at every value. -/
def Obligations.DecodeOfEncodeIsIdentity : Prop := ∀ i : Instr, decode (encode i) = i

/-- Encoding what a word decodes to gives the word back but for the bits its operand class ignores, which are written as 0 (D25,
log 21). -/
def Obligations.EncodeOfDecodeKeepsMeaningfulBits : Prop :=
  ∀ w : Word, encode (decode w) = w &&& (decode w).opCode.operandClass.meaningfulBits

/-- Ignored bits "may hold any value, they do not change what the instruction does" (D25, log 21): two words that agree on the bits
the first one's class makes meaningful decode alike. -/
def Obligations.IgnoredBitsChangeNothing : Prop :=
  ∀ w w' : Word, w &&& (decode w).opCode.operandClass.meaningfulBits = w' &&& (decode w).opCode.operandClass.meaningfulBits →
    decode w' = decode w

/-- R51: the five fields stand at the same bits of every word, and `address` is `s` and `t` read together. -/
def Obligations.FieldsStandAtFixedPositions : Prop :=
  ∀ w : Word,
    w.toNat = (fieldsOf w).op.number.val * 4096 + (fieldsOf w).d.val * 256 + (fieldsOf w).s.val * 16 + (fieldsOf w).t.val ∧
    (fieldsOf w).address.toNat = (fieldsOf w).s.val * 16 + (fieldsOf w).t.val

/-! ## The step -/

/-- R16: a step of a running machine fetches `M[p]`, advances `pc`, and runs the decoded instruction in that state. -/
def Obligations.StepRunsTheFetchedInstruction : Prop :=
  ∀ s : State, s.running = true → step s = exec (decode (s.memRead s.pc)) (s.setPc (s.pc + 1))

/-- While Halted a step, a step request and a run change nothing (the spec's decisions D9 and D17, logs 10 and 16). -/
def Obligations.HaltedMachineDoesNothing : Prop :=
  ∀ s : State, s.running = false →
    step s = .next s ∧ stepRequest s = (.idle, s) ∧ ∀ fuel, runFor fuel s = (some .idle, s)

/-- A step request reports Idle, Continued, Halted or Failed, with what executed and the state afterwards as the table of results says
(the spec's decisions D2, D3, D9 and D13, logs 4, 5, 10 and 13); nothing is refused. -/
def Obligations.StepRequestReportsOneOfFourResults : Prop :=
  ∀ s : State,
    (s.running = false ∧ stepRequest s = (.idle, s)) ∨
    (s.running = true ∧ fetched s ≠ .halt ∧ ∃ t, step s = .next t ∧ t.running = true ∧ stepRequest s = (.continued, t)) ∨
    (s.running = true ∧ fetched s = .halt ∧ stepRequest s = (.halted, { s with pc := s.pc + 1, running := false })) ∨
    (s.running = true ∧ ∃ e, step s = .fault e ∧ stepRequest s = (.failed e, s))

/-- A step fails exactly in these cases and is never refused: a read of the port with `IN` empty, or an indirect address above
0x00FF (the spec's decision D4, log 6). -/
def Obligations.StepFailsExactlyWhen : Prop :=
  ∀ s : State, (∀ r, step s ≠ .refused r) ∧ ∀ e, step s = .fault e ↔ s.running = true ∧
    ((e = .inputExhausted ∧ ReadsPort (fetched s) s ∧ s.input = []) ∨
     ∃ d r, (fetched s = .loadIndirect d r ∨ fetched s = .storeIndirect d r) ∧
       0x00FF < (s.reg r).toNat ∧ e = .outOfRange (s.reg r))

/-- Where `pc` stands after a step that completes: after Halt by the spec's decision D3 (log 5), after BranchPositive by D24
(log 20). -/
def Obligations.CompletedStepSetsPc : Prop :=
  ∀ s t : State, s.running = true → step s = .next t → t.pc = nextPc (fetched s) s

/-- R82: the controller remains Running and reports Continued, but for Halt, which clears `running` and reports Halted. -/
def Obligations.OnlyHaltEndsRunning : Prop :=
  ∀ s t : State, s.running = true → step s = .next t →
    (fetched s ≠ .halt → t.running = true ∧ stepRequest s = (.continued, t)) ∧
    (fetched s = .halt → t.running = false ∧ stepRequest s = (.halted, t))

/-- R80: normalisation clears `x[0]` after every instruction but Halt, whatever it wrote and from whatever state; Halt changes no
register. The masks of R80 change nothing in registers of these widths (C11). -/
def Obligations.NonHaltingStepClearsRegisterZero : Prop :=
  ∀ s t : State, s.running = true → step s = .next t →
    (fetched s ≠ .halt → t.reg 0 = 0x0000) ∧ (fetched s = .halt → ∀ r, t.reg r = s.reg r)

/-- The step equals the spec's own summary of the whole step as one function, with the spec's decisions D2, D3, D4, D5, D6, D7, D8, D9, D13,
D20, D24 and D25 (logs 4 to 10, 13, 17, 20 and 21). -/
def Obligations.StepRequestEqualsSummary : Prop := ∀ s : State, stepRequest s = summaryStep s

/-- Every step keeps the invariant: `x[0]` is 0 and memory is in its canonical form (the model's own, log 1). -/
def Obligations.StepKeepsInvariant : Prop := ∀ s t : State, s.Inv → step s = .next t → t.Inv

/-- The invariant holds after creation: `x[0]` is 0, and memory is in its canonical form, which is the model's own (DESIGN CHOICE,
log 1). -/
def Obligations.ResetMeetsInvariant : Prop := State.reset.Inv

/-- Whatever the host and the stream's owner do between steps, the invariant holds at every step boundary: `x[0]` is 0, and memory is
in its canonical form, which is the model's own (DESIGN CHOICE, log 1). The host's write to register 0 is ignored by the spec's
decision D10 (log 11). -/
def Obligations.SessionKeepsInvariant : Prop :=
  ∀ (ops : List ExternalOp) (z : Session), z.state.Inv → (session ops z).state.Inv

/-- At creation and after RESET every item of the CORE is zero, and RESET leaves the stream as it was (the spec's decision D11,
log 12). -/
def Obligations.ResetLeavesEverythingZero : Prop :=
  ∀ s t : State, t = State.reset ∨ t = (hostOp .reset s).2 →
    t.pc = 0x00 ∧ (∀ r, t.reg r = 0x0000) ∧ (∀ a, t.memRead a = 0x0000) ∧ t.running = false ∧
    SameStream s (hostOp .reset s).2

/-! ## Whole-machine rules -/

/-- R14: an instruction assigns no register but those of the table's column "writes" (and `x[0]`, by normalisation), and what it does
depends on no register but those of the column "reads". -/
def Obligations.RegisterUseIsTheTable : Prop :=
  (∀ i s t, exec i s = .next t → ∀ r, r ∉ writesRegs i → t.reg r = if r = 0 ∧ i ≠ .halt then 0x0000 else s.reg r) ∧
  ∀ (i : Instr) (s : State) (other : Vector Word 16), (∀ r ∈ readsRegs i, other[r] = s.reg r) →
    match exec i s with
    | .next t => ∃ u, exec i { s with regs := other } = .next u ∧ u.pc = t.pc ∧ u.mem = t.mem ∧ u.running = t.running ∧
        u.input = t.input ∧ u.output = t.output ∧ ∀ r ∈ writesRegs i, u.reg r = t.reg r
    | .fault e => exec i { s with regs := other } = .fault e
    | .refused _ => False

/-- R31: the only accesses that change memory are a store, to the cell it addresses, and the read transfer, to 0xFF. -/
def Obligations.MemoryChangesOnlyWhereStored : Prop :=
  ∀ i s t a, exec i s = .next t → ¬ StoresTo i s a → ¬ (ReadsPort i s ∧ a = 0xFF) → t.memRead a = s.memRead a

/-- R143: one word is pulled by a Load or LoadIndirect of 0xFF, one word is emitted by a Store or StoreIndirect to 0xFF, and otherwise
the stream is left alone; no host operation touches it but through the steps of STEP and RUN. -/
def Obligations.StreamMovesOneWordAtThePort : Prop :=
  (∀ i s t, exec i s = .next t →
    (ReadsPort i s → (∃ v, s.input = v :: t.input) ∧ t.output = s.output) ∧
    (WritesPort i s → t.input = s.input ∧ ∃ v, t.output = s.output ++ [v]) ∧
    (¬ ReadsPort i s → ¬ WritesPort i s → SameStream s t)) ∧
  ∀ op s, op ≠ .step → (∀ fuel, op ≠ .run fuel) → SameStream s (hostOp op s).2

/-- The content of `OUT` influences nothing: a step with more words in front of the log does the same and keeps them. -/
def Obligations.OutputLogIsNeverRead : Prop :=
  ∀ (s : State) (earlier : List Word),
    step { s with output := earlier ++ s.output } =
      match step s with
      | .next t => .next { t with output := earlier ++ t.output }
      | .fault e => .fault e
      | .refused r => .refused r

/-- A step that completes does the same, and leaves the words alone, when more words stand behind the queue. -/
def Obligations.LaterInputDoesNotChangeAStep : Prop :=
  ∀ (s t : State) (words : List Word), step s = .next t → step (supplyInput s words) = .next (supplyInput t words)

/-- Memories in canonical form that agree on every cell are equal data (the model's own form, log 1). -/
def Obligations.MemoryIsDeterminedByItsCells : Prop :=
  ∀ m n : Memory, m.wf → n.wf → (∀ a < Config.memSize, m.read a = n.read a) → m = n

/-- A word stored where the next fetch reads is the instruction the next step runs (self-modifying code). -/
def Obligations.StoreIsSeenByTheNextFetch : Prop :=
  ∀ (s t : State) (d : RegIdx), s.running = true → s.mem.wf → step s = .next t →
    (fetched s = .store d t.pc ∨ ∃ r, fetched s = .storeIndirect d r ∧ (s.reg r).toNat = t.pc.toNat) →
    step t = exec (decode (s.reg d)) (t.setPc (t.pc + 1))

/-! ## The instructions -/

/-- Halt clears `running` and changes nothing else; `pc` keeps the default advance by the spec's decision D3 (log 5), and any word
with top digit 0 is a Halt (D25, log 21). -/
def Obligations.HaltClearsRunningOnly : Prop :=
  (∀ n < 4096, decode (BitVec.ofNat 16 n) = .halt) ∧ ∀ s : State, exec .halt s = .next { s with running := false }

/-- R100: the six ALU instructions compute from `x[s]` and `x[t]` alone, write `x[d]` and nothing else, leave `pc` at the default
advance, trigger no transfer and cannot fail. -/
def Obligations.AluInstructionsShareOneShape : Prop :=
  ∀ make ∈ [Instr.add, Instr.subtract, Instr.and, Instr.xor, Instr.shiftLeft, Instr.shiftRight],
    ∃ f : Word → Word → Word, ∀ d x y : RegIdx,
      decode (digits (make d x y).opCode.number d x y) = make d x y ∧
      ∀ s : State, ∃ t, exec (make d x y) s = .next t ∧ WritesReg d (f (s.reg x) (s.reg y)) s t

/-- Add: the sum modulo 2^16, which is the sum of the signed readings too. The opcode number 1 rests on D20 (log 17). -/
def Obligations.AddWritesTheWrappedSum : Prop :=
  ∀ d x y : RegIdx, decode (digits 0x1 d x y) = .add d x y ∧
    ∀ s : State, ∃ t v, exec (.add d x y) s = .next t ∧ WritesReg d v s t ∧
      v.toNat = ((s.reg x).toNat + (s.reg y).toNat) % 0x10000 ∧
      v.toInt = ((s.reg x).toInt + (s.reg y).toInt).bmod 0x10000

/-- Subtract: the difference of the signed readings modulo 2^16, which is `x[s] - x[t]` if `x[s] >= x[t]` and `x[s] - x[t] + 0x10000`
otherwise. The opcode number 2 rests on D20 (log 17). -/
def Obligations.SubtractWritesTheWrappedDifference : Prop :=
  ∀ d x y : RegIdx, decode (digits 0x2 d x y) = .subtract d x y ∧
    ∀ s : State, ∃ t v, exec (.subtract d x y) s = .next t ∧ WritesReg d v s t ∧
      v.toInt = ((s.reg x).toInt - (s.reg y).toInt).bmod 0x10000 ∧
      (v.toNat : Int) = if (s.reg y).toNat ≤ (s.reg x).toNat then ((s.reg x).toNat : Int) - (s.reg y).toNat
        else ((s.reg x).toNat : Int) - (s.reg y).toNat + 0x10000

/-- And: bit by bit. The opcode number 3 rests on D20 (log 17). -/
def Obligations.AndWritesTheCommonBits : Prop :=
  ∀ d x y : RegIdx, decode (digits 0x3 d x y) = .and d x y ∧
    ∀ s : State, ∃ t v, exec (.and d x y) s = .next t ∧ WritesReg d v s t ∧
      ∀ k < 16, v.getLsbD k = true ↔ (s.reg x).getLsbD k = true ∧ (s.reg y).getLsbD k = true

/-- Xor: bit by bit. The opcode number 4 rests on D20 (log 17). -/
def Obligations.XorWritesTheDifferingBits : Prop :=
  ∀ d x y : RegIdx, decode (digits 0x4 d x y) = .xor d x y ∧
    ∀ s : State, ∃ t v, exec (.xor d x y) s = .next t ∧ WritesReg d v s t ∧
      ∀ k < 16, v.getLsbD k = true ↔ (s.reg x).getLsbD k ≠ (s.reg y).getLsbD k

/-- ShiftLeft: `(x[s] * 2^n) mod 2^16` for the whole register value `n = x[t]`; for `n >= 16` that is 0 by the spec's decision D7
(log 8). The opcode number 5 rests on D20 (log 17). -/
def Obligations.ShiftLeftMultipliesByAPower : Prop :=
  ∀ d x y : RegIdx, decode (digits 0x5 d x y) = .shiftLeft d x y ∧
    ∀ s : State, ∃ t v, exec (.shiftLeft d x y) s = .next t ∧ WritesReg d v s t ∧
      v.toNat = (s.reg x).toNat * 2 ^ (s.reg y).toNat % 0x10000 ∧ (16 ≤ (s.reg y).toNat → v = 0x0000)

/-- ShiftRight: `floor(x[s] / 2^n)`, unsigned, for the whole register value `n = x[t]`: zeros enter by the spec's decision D6 (log 7),
and 0 for `n >= 16` by D7 (log 8). The opcode number 6 rests on D20 (log 17). -/
def Obligations.ShiftRightDividesByAPower : Prop :=
  ∀ d x y : RegIdx, decode (digits 0x6 d x y) = .shiftRight d x y ∧
    ∀ s : State, ∃ t v, exec (.shiftRight d x y) s = .next t ∧ WritesReg d v s t ∧
      v.toNat = (s.reg x).toNat / 2 ^ (s.reg y).toNat ∧ (16 ≤ (s.reg y).toNat → v = 0x0000)

/-- Sources are read before the destination is written (R109, which the spec derives from R100): each of the six ALU instructions gives
the same result when its destination is its first source, its second, or (`x` = `y`) both, as when it is any other register. So
`Add R, R, R` doubles, and `Subtract R, R, R` and `Xor R, R, R` clear. Register 0 as destination discards the result, which O26 says. -/
def Obligations.AluSourcesAreReadFirst : Prop :=
  (∀ make ∈ [Instr.add, Instr.subtract, Instr.and, Instr.xor, Instr.shiftLeft, Instr.shiftRight],
    ∀ (d x y : RegIdx) (s : State), d ≠ 0 → ∃ u, exec (make d x y) s = .next u ∧
      (x ≠ 0 → ∃ t, exec (make x x y) s = .next t ∧ t.reg x = u.reg d) ∧
      (y ≠ 0 → ∃ t, exec (make y x y) s = .next t ∧ t.reg y = u.reg d)) ∧
  ∀ (r : RegIdx) (s : State), r ≠ 0 →
    (∃ t, exec (.add r r r) s = .next t ∧ (t.reg r).toNat = 2 * (s.reg r).toNat % 0x10000) ∧
    (∃ t, exec (.subtract r r r) s = .next t ∧ t.reg r = 0x0000) ∧
    (∃ t, exec (.xor r r r) s = .next t ∧ t.reg r = 0x0000)

/-- R110: LoadAddress writes the zero-extended immediate and nothing else; 0xFF triggers no transfer. -/
def Obligations.LoadAddressWritesTheImmediate : Prop :=
  ∀ (d : RegIdx) (a : Addr), decode (digitsAddress 0x7 d a) = .loadAddress d a ∧
    ∀ s : State, ∃ t v, exec (.loadAddress d a) s = .next t ∧ WritesReg d v s t ∧ v.toNat = a.toNat

/-- R111: Load writes the cell's word; of 0xFF it pulls the head of `IN` through `M[0xFF]` first, or fails if `IN` is empty. -/
def Obligations.LoadWritesTheCellsWord : Prop :=
  ∀ (d : RegIdx) (a : Addr), decode (digitsAddress 0x8 d a) = .load d a ∧
    ∀ s : State,
      (a ≠ 0xFF → ∃ t, exec (.load d a) s = .next t ∧ WritesReg d (s.memRead a) s t) ∧
      (a = 0xFF → s.input = [] → exec (.load d a) s = .fault .inputExhausted) ∧
      (a = 0xFF → s.mem.wf → ∀ v rest, s.input = v :: rest →
        ∃ t, exec (.load d a) s = .next t ∧ LoadsInput d v rest s t)

/-- R112: Store writes `x[d]` to the cell `address`; at 0xFF it is appended to `OUT` too. -/
def Obligations.StoreWritesTheCell : Prop :=
  ∀ (d : RegIdx) (a : Addr), decode (digitsAddress 0x9 d a) = .store d a ∧
    ∀ s : State, s.mem.wf → ∃ t, exec (.store d a) s = .next t ∧ StoresWord a (s.reg d) s t

/-- LoadIndirect: as Load, of the cell that `x[t]` names; `OutOfRange` above 0x00FF, with the whole register compared, by the spec's
decisions D4 and D5 (log 6). The opcode number A rests on D20 (log 17), the ignored digit on D25 (log 21). -/
def Obligations.LoadIndirectWritesTheCellsWord : Prop :=
  ∀ (d r ignored : RegIdx), decode (digits 0xA d ignored r) = .loadIndirect d r ∧
    ∀ s : State,
      ((s.reg r).toNat < 0x00FF → ∃ t, exec (.loadIndirect d r) s = .next t ∧
        WritesReg d (s.memRead (BitVec.ofNat 8 (s.reg r).toNat)) s t) ∧
      (s.reg r = 0x00FF → s.input = [] → exec (.loadIndirect d r) s = .fault .inputExhausted) ∧
      (s.reg r = 0x00FF → s.mem.wf → ∀ v rest, s.input = v :: rest →
        ∃ t, exec (.loadIndirect d r) s = .next t ∧ LoadsInput d v rest s t) ∧
      (0x00FF < (s.reg r).toNat → exec (.loadIndirect d r) s = .fault (.outOfRange (s.reg r)))

/-- StoreIndirect: as Store, to the cell that `x[t]` names; `OutOfRange` above 0x00FF by the spec's decisions D4 and D5 (log 6). The
opcode number B rests on D20 (log 17), the ignored digit on D25 (log 21). -/
def Obligations.StoreIndirectWritesTheCell : Prop :=
  ∀ (d r ignored : RegIdx), decode (digits 0xB d ignored r) = .storeIndirect d r ∧
    ∀ s : State,
      ((s.reg r).toNat ≤ 0x00FF → s.mem.wf → ((AddrMode.indirect r).cell s).toNat = (s.reg r).toNat ∧
        ∃ t, exec (.storeIndirect d r) s = .next t ∧ StoresWord ((AddrMode.indirect r).cell s) (s.reg d) s t) ∧
      (0x00FF < (s.reg r).toNat → exec (.storeIndirect d r) s = .fault (.outOfRange (s.reg r)))

/-- R120: BranchZero sets `pc` to its target exactly when all 16 bits of `x[d]` are 0, and changes nothing else. -/
def Obligations.BranchZeroTakenOnZero : Prop :=
  ∀ (d : RegIdx) (a : Addr), decode (digitsAddress 0xC d a) = .branchZero d a ∧
    ∀ s : State, ∃ t, exec (.branchZero d a) s = .next t ∧ SetsPc (if (s.reg d).toNat = 0 then a else s.pc) s t

/-- BranchPositive sets `pc` to its target exactly when `x[d]`, read as unsigned, is above 0, that is, not 0; the unsigned reading is the
source's own, kept by D24 (log 20). -/
def Obligations.BranchPositiveTakenOnNonZero : Prop :=
  ∀ (d : RegIdx) (a : Addr), decode (digitsAddress 0xD d a) = .branchPositive d a ∧
    ∀ s : State, ∃ t, exec (.branchPositive d a) s = .next t ∧ SetsPc (if s.reg d = 0x0000 then s.pc else a) s t

/-- R122: JumpRegister sets `pc` to the low eight bits of `x[d]`, ignores the word's low eight bits, and changes nothing else. -/
def Obligations.JumpRegisterTakesTheLowByte : Prop :=
  ∀ (d : RegIdx) (ignored : Addr), decode (digitsAddress 0xE d ignored) = .jumpRegister d ∧
    ∀ s : State, ∃ t target, exec (.jumpRegister d) s = .next t ∧ SetsPc target s t ∧
      target.toNat = (s.reg d).toNat % 0x100

/-- JumpAndLink writes the address of the next instruction, zero-extended, to `x[d]` and sets `pc` to its target; the link value is the
spec's decision D8 (log 9). -/
def Obligations.JumpAndLinkLinksTheNextAddress : Prop :=
  ∀ (d : RegIdx) (a : Addr), decode (digitsAddress 0xF d a) = .jumpAndLink d a ∧
    ∀ s : State, ∃ t link, exec (.jumpAndLink d a) s = .next t ∧ OneReg d link s t ∧ link.toNat = s.pc.toNat ∧
      t.pc = a ∧ SameCells s t ∧ t.running = s.running ∧ SameStream s t

/-- Call and return: a JumpRegister on the link register, wherever and whenever it executes with the link intact, continues after the
JumpAndLink (D8, log 9). -/
def Obligations.ReturnGoesBehindTheCall : Prop :=
  ∀ (d : RegIdx) (a : Addr) (s t u : State), d ≠ 0 → exec (.jumpAndLink d a) s = .next t → u.reg d = t.reg d →
    ∃ v, exec (.jumpRegister d) u = .next v ∧ v.pc = s.pc

/-- The listing's idioms do what their names say: the unconditional jump 0xC0NN, the no-operation 0x1000, the never-taken branch
0xD0NN, the move 0x1ds0, the two ways to clear, 0x7d00 and 0x4ddd, the return 0xEd00, the read of an input word 0x8dFF and the write of
an output word 0x9dFF. The opcode numbers 1 and 4 rest on the spec's decision D20 (log 17), the branch 0xD0NN on D24 (log 20). -/
def Obligations.IdiomsDoWhatTheyName : Prop :=
  ∀ s : State, s.reg 0 = 0x0000 → ∀ (d x : RegIdx) (a : Addr),
    (∃ t, exec (decode (digitsAddress 0xC 0 a)) s = .next t ∧ SetsPc a s t) ∧
    (∃ t, exec (decode 0x1000) s = .next t ∧ SetsPc s.pc s t) ∧
    (∃ t, exec (decode (digitsAddress 0xD 0 a)) s = .next t ∧ SetsPc s.pc s t) ∧
    (∃ t, exec (decode (digits 0x1 d x 0)) s = .next t ∧ WritesReg d (s.reg x) s t) ∧
    (∃ t, exec (decode (digits 0x7 d 0 0)) s = .next t ∧ WritesReg d 0x0000 s t) ∧
    (∃ t, exec (decode (digits 0x4 d d d)) s = .next t ∧ WritesReg d 0x0000 s t) ∧
    ((s.reg d).toNat = a.toNat → ∃ t, exec (decode (digits 0xE d 0 0)) s = .next t ∧ SetsPc a s t) ∧
    (s.mem.wf → ∀ v rest, s.input = v :: rest →
      ∃ t, exec (decode (digitsAddress 0x8 d 0xFF)) s = .next t ∧ LoadsInput d v rest s t) ∧
    (s.mem.wf → ∃ t, exec (decode (digitsAddress 0x9 d 0xFF)) s = .next t ∧ StoresWord 0xFF (s.reg d) s t)

/-! ## The word port -/

/-- R151: the read transfer pulls exactly one word and writes it to `M[0xFF]` before the load, whose destination takes it, or fails the
step if `IN` is empty; no other instruction triggers it. -/
def Obligations.ReadTransferComesBeforeTheLoad : Prop :=
  ∀ (i : Instr) (s : State),
    (ReadsPort i s → s.input = [] → exec i s = .fault .inputExhausted) ∧
    (ReadsPort i s → s.mem.wf → ∀ v rest, s.input = v :: rest →
      ∃ d t, writesRegs i = [d] ∧ exec i s = .next t ∧ LoadsInput d v rest s t) ∧
    (¬ ReadsPort i s → exec i s ≠ .fault .inputExhausted ∧ ∀ t, exec i s = .next t → t.input = s.input)

/-- R152: the write transfer appends to `OUT` the word that the store has put into `M[0xFF]`, the value of `x[d]`; it cannot fail, and
no other instruction triggers it. -/
def Obligations.WriteTransferComesAfterTheStore : Prop :=
  ∀ (i : Instr) (s : State),
    (WritesPort i s → s.mem.wf → ∃ d r t, readsRegs i = d :: r ∧ exec i s = .next t ∧ t.memRead 0xFF = s.reg d ∧
      t.output = s.output ++ [t.memRead 0xFF]) ∧
    (¬ WritesPort i s → ∀ t, exec i s = .next t → t.output = s.output)

/-- A failed request leaves the state to resume from: after InputExhausted one more word makes the same request succeed, after
OutOfRange more input changes nothing (the spec's decisions D2 and D4, logs 4 and 6). -/
def Obligations.FailedRequestCanBeResumed : Prop :=
  ∀ (s s' : State) (e : Fault), stepRequest s = (.failed e, s') →
    s' = s ∧
    (e = .inputExhausted → ∀ v, ∃ t, stepRequest (supplyInput s' [v]) = (.continued, t) ∧ t.input = []) ∧
    (∀ w, e = .outOfRange w → ∀ words, stepRequest (supplyInput s' words) = (.failed e, supplyInput s' words))

/-! ## The host -/

/-- SET_PC sets `pc`, SET_RUNNING sets the flag, GET_PC and GET_RUNNING answer them, and none changes anything else (R135, R136). SET_PC
and SET_RUNNING(1) may come in either order (re-arming, R139), and then the next step runs the instruction at the chosen address (R16). -/
def Obligations.RearmingRunsFromTheChosenAddress : Prop :=
  ∀ (s : State) (a : Addr) (b : Bool),
    hostOp (.setPc a) s = (.none, { s with pc := a }) ∧ hostOp (.setRunning b) s = (.none, { s with running := b }) ∧
    hostOp .getPc s = (.pc s.pc, s) ∧ hostOp .getRunning s = (.running s.running, s) ∧
    session [.host (.setPc a), .host (.setRunning true)] (.ready s) = .ready { s with pc := a, running := true } ∧
    session [.host (.setRunning true), .host (.setPc a)] (.ready s) = .ready { s with pc := a, running := true } ∧
    step { s with pc := a, running := true } = exec (decode (s.memRead a)) { s with pc := a + 1, running := true }

/-- Of all that the host and the stream's owner do, only the host's SET_RUNNING(1) wakes a Halted machine. STEP, RUN, SET_RUNNING(0),
GET_PC, GET_RUNNING, OBSERVE and reading `OUT` leave its state as it is, and appending to `IN` changes `IN` only. STEP rests on the spec's
decision D9 (log 10), RUN on D17 (log 16), OBSERVE on D21 (log 18), the state after RESET on D11 (log 12). -/
def Obligations.OnlySetRunningWakesTheMachine : Prop :=
  ∀ (z : Session) (op : ExternalOp), z.state.running = false →
    (op ≠ .host (.setRunning true) → (externalOp op z).2.state.running = false) ∧
    (op = .host .step ∨ (∃ fuel, op = .host (.run fuel) ∨ op = .goOn fuel) ∨ op = .host (.setRunning false) ∨ op = .host .getPc ∨
      op = .host .getRunning ∨ op = .host .observe ∨ op = .stream .readOutput → (externalOp op z).2.state = z.state) ∧
    ∀ words, op = .stream (.supply words) → (externalOp op z).2.state = { z.state with input := z.state.input ++ words }

/-- SET_REG writes the register named and nothing else; register 0 it leaves alone (the spec's decision D10, log 11). -/
def Obligations.SetRegWritesAllButRegisterZero : Prop :=
  ∀ (s : State) (i : RegIdx) (v : Word), ∃ t, hostOp (.setReg i v) s = (.none, t) ∧
    (∀ r, t.reg r = if r = i ∧ r ≠ 0 then v else s.reg r) ∧ t.pc = s.pc ∧ SameCells s t ∧ t.running = s.running ∧
    SameStream s t

/-- LOAD writes the pairs in order, so that the last pair for a cell stands, and changes nothing else (the spec's decision D15,
log 14). -/
def Obligations.LoadLeavesTheLastPair : Prop :=
  ∀ (s : State) (pairs : List (Addr × Word)), s.mem.wf → ∃ t, hostOp (.load pairs) s = (.none, t) ∧
    (∀ a, t.memRead a = (pairs.reverse.lookup a).getD (s.memRead a)) ∧ (∀ r, t.reg r = s.reg r) ∧ t.pc = s.pc ∧
    t.running = s.running ∧ SameStream s t

/-- OBSERVE hands over every item of state and changes none (the spec's decision D21, log 18). -/
def Obligations.ObserveReadsEverything : Prop :=
  ∀ s : State, ∃ o, hostOp .observe s = (.observed o, s) ∧ o.pc = s.pc ∧ (∀ r : RegIdx, o.regs[r] = s.reg r) ∧
    o.cells.length = 256 ∧ (∀ a : Addr, o.cells[a.toNat]? = some (s.memRead a)) ∧ o.running = s.running

/-- RUN's result does not depend on how long it is watched (the spec's decision D17, log 16). -/
def Obligations.RunResultIsUnique : Prop :=
  ∀ (s t u : State) (r q : StepResult), RunReturns s r t → RunReturns s q u → r = q ∧ t = u

/-- RUN ends by Halt with `running` = 0, by a failure with `running` = 1 and the failing instruction still to be executed, or at once
if the machine was Halted (the spec's decisions D2 and D17, logs 4 and 16). -/
def Obligations.RunEndsByHaltOrFailure : Prop :=
  ∀ (s t : State) (r : StepResult), RunReturns s r t →
    (r = .halted ∧ s.running = true ∧ t.running = false) ∨
    (∃ e, r = .failed e ∧ t.running = true ∧ step t = .fault e) ∨
    (r = .idle ∧ s.running = false ∧ t = s)

/-- The host issues an operation, the operation completes, and only then can the next be issued, in Running as in Halted; during RUN
the host can do nothing until RUN returns (R131, the spec's decision D22, log 18). How long a RUN is watched makes no difference to it
(R86, D17, log 16), and while it has not returned the machine is Running. -/
def Obligations.RunHoldsOffTheHost : Prop :=
  (∀ z op, z.inRun = true → externalOp (.host op) z = (.notIssued, z)) ∧
  (∀ op s, (externalOp (.host op) (.ready s)).1 = (hostOp op s).1 ∧ (externalOp (.host op) (.ready s)).2.state = (hostOp op s).2 ∧
    ((externalOp (.host op) (.ready s)).2.inRun = true ↔ ∃ fuel, op = .run fuel ∧ (runFor fuel s).1 = none)) ∧
  (∀ s t m n, runFor m s = (none, t) → t.running = true ∧
    externalOp (.goOn n) (externalOp (.host (.run m)) (.ready s)).2 = externalOp (.host (.run (m + n))) (.ready s))
end

