-- ==== Sys2Proof/Laws/Alu.lean ====
section
/-! SUPPORT. The ALU's functions and the branch conditions in plain word arithmetic. -/

namespace Sys2Proof.Machine

theorem aluAdd_eq (a b : Word) : aluAdd a b = a + b := by
  apply BitVec.eq_of_toNat_eq
  simp [aluAdd, BitVec.toNat_add]

/-- The signed casts "do not change the result" (R102). -/
theorem aluSubtract_eq (a b : Word) : aluSubtract a b = a - b := by
  apply BitVec.eq_of_toInt_eq
  simp [aluSubtract, BitVec.toInt_sub]

theorem aluShiftLeft_eq (a n : Word) : aluShiftLeft a n = a <<< n := by
  apply BitVec.eq_of_toNat_eq
  simp [aluShiftLeft]

theorem aluShiftRight_eq (a n : Word) : aluShiftRight a n = a >>> n := by
  apply BitVec.eq_of_toNat_eq
  have := Nat.lt_of_le_of_lt (Nat.div_le_self a.toNat (2 ^ n.toNat)) a.isLt
  simpa [aluShiftRight, Nat.shiftRight_eq_div_pow] using this

/-- "The exact complement of BranchZero's" (R121). -/
theorem isPositive_eq (v : Word) : isPositive v = !isZero v := by
  have : v.toNat = 0 ↔ v = 0x0000 := ⟨fun h => BitVec.eq_of_toNat_eq h, fun h => by rw [h]; rfl⟩
  rw [Bool.eq_iff_iff]
  simp only [isPositive, isZero, decide_eq_true_eq, Bool.not_eq_true', beq_eq_false_iff_ne, ne_eq, ← this]
  omega

end Sys2Proof.Machine
end

