-- ==== Sys2Proof/Laws/Decode.lean ====
section
/-! SUPPORT. What the decoder's field extraction reads from a word written digit by digit. -/

namespace Sys2Proof

/-- A digit extracted at bit `k` is that digit of the word's number. -/
theorem digitAt_val (w : Word) (k : Nat) : (BitVec.extractLsb' k 4 w).toFin.val = w.toNat / 2 ^ k % 16 := by
  simp [Nat.shiftRight_eq_div_pow]

theorem digits_toNat (op d s t : Fin 16) :
    (digits op d s t).toNat = op.val * 4096 + d.val * 256 + s.val * 16 + t.val := by
  have := op.isLt; have := d.isLt; have := s.isLt; have := t.isLt
  simp only [digits, BitVec.toNat_ofNat]
  omega

theorem digitsAddress_toNat (op d : Fin 16) (a : Addr) :
    (digitsAddress op d a).toNat = op.val * 4096 + d.val * 256 + a.toNat := by
  have := op.isLt; have := d.isLt; have := a.isLt
  simp only [digitsAddress, BitVec.toNat_ofNat]
  omega

/-- The five fields of a word in the register layout (30_encoding.md R51). -/
theorem fieldsOf_digits (op d s t : Fin 16) :
    fieldsOf (digits op d s t) = ⟨OpCode.ofNumber op, d, s, t, BitVec.ofNat 8 (s.val * 16 + t.val)⟩ := by
  have := op.isLt; have := d.isLt; have := s.isLt; have := t.isLt
  have hop : (BitVec.extractLsb' 12 4 (digits op d s t)).toFin = op := by
    apply Fin.ext; rw [digitAt_val, digits_toNat]; omega
  have hd : (BitVec.extractLsb' 8 4 (digits op d s t)).toFin = d := by
    apply Fin.ext; rw [digitAt_val, digits_toNat]; omega
  have hs : (BitVec.extractLsb' 4 4 (digits op d s t)).toFin = s := by
    apply Fin.ext; rw [digitAt_val, digits_toNat]; omega
  have ht : (BitVec.extractLsb' 0 4 (digits op d s t)).toFin = t := by
    apply Fin.ext; rw [digitAt_val, digits_toNat]; omega
  have ha : BitVec.extractLsb' 0 8 (digits op d s t) = BitVec.ofNat 8 (s.val * 16 + t.val) := by
    apply BitVec.eq_of_toNat_eq
    simp only [BitVec.extractLsb'_toNat, Nat.shiftRight_zero, digits_toNat, BitVec.toNat_ofNat]
    omega
  simp only [fieldsOf, hop, hd, hs, ht, ha]

/-- The fields that matter of a word in the address layout (R51). -/
theorem fieldsOf_digitsAddress (op d : Fin 16) (a : Addr) :
    (fieldsOf (digitsAddress op d a)).op = OpCode.ofNumber op ∧ (fieldsOf (digitsAddress op d a)).d = d ∧
    (fieldsOf (digitsAddress op d a)).address = a := by
  have := op.isLt; have := d.isLt; have := a.isLt
  refine ⟨congrArg OpCode.ofNumber ?_, ?_, ?_⟩
  · apply Fin.ext; rw [digitAt_val, digitsAddress_toNat]; omega
  · apply Fin.ext
    show (BitVec.extractLsb' 8 4 (digitsAddress op d a)).toFin.val = d.val
    rw [digitAt_val, digitsAddress_toNat]; omega
  · apply BitVec.eq_of_toNat_eq
    simp only [fieldsOf, BitVec.extractLsb'_toNat, Nat.shiftRight_zero, digitsAddress_toNat]
    omega

/-- The opcode map and the numbering are inverse to each other (R54). -/
theorem ofNumber_number (c : OpCode) : OpCode.ofNumber c.number = c := by cases c <;> rfl

theorem Fields.wf_ofRegs (op : OpCode) (d s t : RegIdx) : (Instr.fields.ofRegs op d s t).wf = true := by
  have := s.isLt; have := t.isLt
  simp only [Fields.wf, Instr.fields.ofRegs, BitVec.toNat_ofNat, beq_iff_eq]
  omega

theorem Fields.wf_ofAddress (op : OpCode) (d : RegIdx) (a : Addr) : (Instr.fields.ofAddress op d a).wf = true := by
  have := a.isLt
  simp only [Fields.wf, Instr.fields.ofAddress, beq_iff_eq, BitVec.val_toFin, BitVec.extractLsb'_toNat,
    Nat.shiftRight_eq_div_pow]
  omega

/-- Every instruction is well formed: no encoding is illegal or reserved (R57). -/
theorem Instr.wf_true (i : Instr) : i.wf = true := by
  cases i <;> first | exact Fields.wf_ofRegs _ _ _ _ | exact Fields.wf_ofAddress _ _ _

end Sys2Proof
end

