-- ==== Sys2Proof/Laws/HostOps.lean ====
section
/-! SUPPORT. What a session's operations do, each said once. -/

namespace Sys2Proof.Machine

@[simp] theorem Session.ready_state (s : State) : (Session.ready s).state = s := rfl
@[simp] theorem Session.ready_inRun (s : State) : (Session.ready s).inRun = false := rfl
@[simp] theorem Session.settle_reply (a : Reply × State) : (Session.settle a).1 = a.1 := rfl
@[simp] theorem Session.settle_state (a : Reply × State) : (Session.settle a).2.state = a.2 := rfl
@[simp] theorem Session.settle_inRun (a : Reply × State) : (Session.settle a).2.inRun = decide (a.1 = .ran none) := rfl

/-- Outside a RUN a host operation takes place. -/
theorem externalOp_host {z : Session} (h : z.inRun = false) (op : HostOp) :
    externalOp (.host op) z = Session.settle (hostOp op z.state) := by simp [externalOp, h]

/-- Inside a RUN no host operation is issued. -/
theorem externalOp_host_inRun {z : Session} (h : z.inRun = true) (op : HostOp) : externalOp (.host op) z = (.notIssued, z) := by
  simp [externalOp, h]

/-- Inside a RUN its further steps take place. -/
theorem externalOp_goOn {z : Session} (h : z.inRun = true) (fuel : Nat) :
    externalOp (.goOn fuel) z = Session.settle (hostOp (.run fuel) z.state) := by simp [externalOp, h]

/-- An external operation changes the state as a host operation, as a stream operation, or not at all. -/
theorem externalOp_state (op : ExternalOp) (z : Session) :
    (∃ o, (externalOp op z).2.state = (hostOp o z.state).2) ∨ (∃ o, (externalOp op z).2.state = (streamOp o z.state).2) ∨
    (externalOp op z).2.state = z.state := by
  cases op with
  | host o =>
    cases h : z.inRun
    · exact .inl ⟨o, by rw [externalOp_host h]; rfl⟩
    · exact .inr (.inr (by rw [externalOp_host_inRun h]))
  | stream o => exact .inr (.inl ⟨o, rfl⟩)
  | goOn fuel =>
    cases h : z.inRun
    · exact .inr (.inr (by simp [externalOp, h]))
    · exact .inl ⟨.run fuel, by rw [externalOp_goOn h]; rfl⟩

/-- Only a RUN that has not returned answers without a result. -/
theorem hostOp_ran_none (op : HostOp) (s : State) :
    (hostOp op s).1 = .ran none ↔ ∃ fuel, op = .run fuel ∧ (runFor fuel s).1 = none := by
  cases op <;> simp [hostOp]

end Sys2Proof.Machine
end

