-- ==== Sys2Proof/Laws/State.lean ====
section
/-! SUPPORT. One lemma for each field under each update of the state, and what the accessors read after an update. -/

namespace Sys2Proof.Machine

@[simp] theorem setReg_pc (s : State) (i : RegIdx) (v : Word) : (s.setReg i v).pc = s.pc := rfl
@[simp] theorem setReg_mem (s : State) (i : RegIdx) (v : Word) : (s.setReg i v).mem = s.mem := rfl
@[simp] theorem setReg_running (s : State) (i : RegIdx) (v : Word) : (s.setReg i v).running = s.running := rfl
@[simp] theorem setReg_input (s : State) (i : RegIdx) (v : Word) : (s.setReg i v).input = s.input := rfl
@[simp] theorem setReg_output (s : State) (i : RegIdx) (v : Word) : (s.setReg i v).output = s.output := rfl

@[simp] theorem setPc_regs (s : State) (a : Addr) : (s.setPc a).regs = s.regs := rfl
@[simp] theorem setPc_mem (s : State) (a : Addr) : (s.setPc a).mem = s.mem := rfl
@[simp] theorem setPc_running (s : State) (a : Addr) : (s.setPc a).running = s.running := rfl
@[simp] theorem setPc_input (s : State) (a : Addr) : (s.setPc a).input = s.input := rfl
@[simp] theorem setPc_output (s : State) (a : Addr) : (s.setPc a).output = s.output := rfl

@[simp] theorem setRunning_pc (s : State) (b : Bool) : (s.setRunning b).pc = s.pc := rfl
@[simp] theorem setRunning_regs (s : State) (b : Bool) : (s.setRunning b).regs = s.regs := rfl
@[simp] theorem setRunning_mem (s : State) (b : Bool) : (s.setRunning b).mem = s.mem := rfl
@[simp] theorem setRunning_input (s : State) (b : Bool) : (s.setRunning b).input = s.input := rfl
@[simp] theorem setRunning_output (s : State) (b : Bool) : (s.setRunning b).output = s.output := rfl

@[simp] theorem memWrite_pc (s : State) (a : Addr) (v : Word) : (s.memWrite a v).pc = s.pc := rfl
@[simp] theorem memWrite_regs (s : State) (a : Addr) (v : Word) : (s.memWrite a v).regs = s.regs := rfl
@[simp] theorem memWrite_running (s : State) (a : Addr) (v : Word) : (s.memWrite a v).running = s.running := rfl
@[simp] theorem memWrite_input (s : State) (a : Addr) (v : Word) : (s.memWrite a v).input = s.input := rfl
@[simp] theorem memWrite_output (s : State) (a : Addr) (v : Word) : (s.memWrite a v).output = s.output := rfl

@[simp] theorem emitOutput_pc (s : State) (v : Word) : (s.emitOutput v).pc = s.pc := rfl
@[simp] theorem emitOutput_regs (s : State) (v : Word) : (s.emitOutput v).regs = s.regs := rfl
@[simp] theorem emitOutput_mem (s : State) (v : Word) : (s.emitOutput v).mem = s.mem := rfl
@[simp] theorem emitOutput_running (s : State) (v : Word) : (s.emitOutput v).running = s.running := rfl
@[simp] theorem emitOutput_input (s : State) (v : Word) : (s.emitOutput v).input = s.input := rfl

@[simp] theorem advancePc_regs (s : State) : s.advancePc.regs = s.regs := rfl
@[simp] theorem advancePc_mem (s : State) : s.advancePc.mem = s.mem := rfl
@[simp] theorem advancePc_running (s : State) : s.advancePc.running = s.running := rfl
@[simp] theorem advancePc_input (s : State) : s.advancePc.input = s.input := rfl
@[simp] theorem advancePc_output (s : State) : s.advancePc.output = s.output := rfl

@[simp] theorem normalise_pc (s : State) : s.normalise.pc = s.pc := rfl
@[simp] theorem normalise_mem (s : State) : s.normalise.mem = s.mem := rfl
@[simp] theorem normalise_running (s : State) : s.normalise.running = s.running := rfl
@[simp] theorem normalise_input (s : State) : s.normalise.input = s.input := rfl
@[simp] theorem normalise_output (s : State) : s.normalise.output = s.output := rfl

@[simp] theorem setPc_pc (s : State) (a : Addr) : (s.setPc a).pc = a := rfl
@[simp] theorem setRunning_running (s : State) (b : Bool) : (s.setRunning b).running = b := rfl
@[simp] theorem memWrite_mem (s : State) (a : Addr) (v : Word) : (s.memWrite a v).mem = s.mem.write a.toNat v := rfl
@[simp] theorem emitOutput_output (s : State) (v : Word) : (s.emitOutput v).output = s.output ++ [v] := rfl

/-- A register reads as the value last written to it, and the others as before. -/
theorem setReg_reg (s : State) (i r : RegIdx) (v : Word) :
    (s.setReg i v).reg r = if r = i then v else s.reg r := by
  simp only [State.setReg, State.reg, Fin.getElem_fin, Vector.getElem_set, Fin.ext_iff, eq_comm]

@[simp] theorem setReg_memRead (s : State) (i : RegIdx) (v : Word) (a : Addr) :
    (s.setReg i v).memRead a = s.memRead a := rfl
@[simp] theorem setPc_reg (s : State) (a : Addr) (r : RegIdx) : (s.setPc a).reg r = s.reg r := rfl
@[simp] theorem setPc_memRead (s : State) (a b : Addr) : (s.setPc a).memRead b = s.memRead b := rfl
@[simp] theorem setRunning_reg (s : State) (b : Bool) (r : RegIdx) : (s.setRunning b).reg r = s.reg r := rfl
@[simp] theorem setRunning_memRead (s : State) (b : Bool) (a : Addr) : (s.setRunning b).memRead a = s.memRead a := rfl
@[simp] theorem emitOutput_reg (s : State) (v : Word) (r : RegIdx) : (s.emitOutput v).reg r = s.reg r := rfl
@[simp] theorem emitOutput_memRead (s : State) (v : Word) (a : Addr) : (s.emitOutput v).memRead a = s.memRead a := rfl
@[simp] theorem advancePc_reg (s : State) (r : RegIdx) : s.advancePc.reg r = s.reg r := rfl
@[simp] theorem advancePc_memRead (s : State) (a : Addr) : s.advancePc.memRead a = s.memRead a := rfl
@[simp] theorem memWrite_reg (s : State) (a : Addr) (v : Word) (r : RegIdx) : (s.memWrite a v).reg r = s.reg r := rfl
@[simp] theorem normalise_memRead (s : State) (a : Addr) : s.normalise.memRead a = s.memRead a := rfl

/-- Normalisation clears register 0 and nothing else (R80). -/
theorem normalise_reg (s : State) (r : RegIdx) : s.normalise.reg r = if r = 0 then 0x0000 else s.reg r :=
  setReg_reg s 0 r 0x0000

/-- The default advance wraps (R17). -/
theorem advancePc_pc (s : State) : s.advancePc.pc = s.pc + 1 := by
  apply BitVec.eq_of_toNat_eq
  simp [State.advancePc, BitVec.toNat_add]

/-- Two states are equal when their fields are. -/
theorem State.ext_fields {s t : State} (pc : s.pc = t.pc) (regs : s.regs = t.regs) (mem : s.mem = t.mem)
    (running : s.running = t.running) (input : s.input = t.input) (output : s.output = t.output) : s = t := by
  cases s; cases t; simp_all

end Sys2Proof.Machine
end

