-- ==== Sys2Proof/Laws/Memory.lean ====
section
/-! SUPPORT. Memory: a read after a write, and that every operation keeps the canonical form. -/

namespace Sys2Proof.Machine

theorem Memory.wf_nil : Memory.wf [] := by decide

theorem Memory.wf_tail {c : Nat × Word} {m : Memory} (h : Memory.wf (c :: m)) : m.wf :=
  ⟨(List.pairwise_cons.1 h.1).2, fun e he => h.2 e (List.mem_cons_of_mem _ he)⟩

/-- A cell below every listed one holds its reset content. -/
theorem Memory.read_below {m : Memory} {a : Nat} (h : ∀ c ∈ m, a < c.1) : m.read a = Config.resetCell := by
  induction m with
  | nil => rfl
  | cons c m ih =>
    have hc := h c List.mem_cons_self
    simp only [Memory.read, if_neg (Nat.ne_of_lt hc)]
    exact ih fun e he => h e (List.mem_cons_of_mem _ he)

/-- Every other cell reads as before the write. -/
theorem Memory.read_write_other (m : Memory) {a b : Nat} (v : Word) (h : b ≠ a) :
    (m.write a v).read b = m.read b := by
  induction m with
  | nil => simp only [Memory.write]; split <;> simp [Memory.read, h]
  | cons c m ih =>
    obtain ⟨k, u⟩ := c
    simp only [Memory.write]
    split
    · split <;> simp [Memory.read, h]
    · split
      · rename_i hk
        subst hk
        split <;> simp [Memory.read, h]
      · simp only [Memory.read, ih]

/-- The cell written reads as the word written. -/
theorem Memory.read_write_same {m : Memory} (hm : m.wf) (a : Nat) (v : Word) : (m.write a v).read a = v := by
  induction m with
  | nil =>
    simp only [Memory.write]
    split
    · simp_all [Memory.read]
    · simp [Memory.read]
  | cons c m ih =>
    obtain ⟨k, u⟩ := c
    have below : ∀ e ∈ m, k < e.1 := (List.pairwise_cons.1 hm.1).1
    simp only [Memory.write]
    split
    · rename_i hk
      split
      · rename_i hv
        rw [hv]
        apply Memory.read_below
        intro e he
        rcases List.mem_cons.1 he with rfl | he
        · exact hk
        · exact Nat.lt_trans hk (below e he)
      · simp [Memory.read]
    · split
      · rename_i hk
        subst hk
        split
        · rename_i hv
          rw [hv]
          exact Memory.read_below below
        · simp [Memory.read]
      · rename_i hk
        simp only [Memory.read, if_neg hk]
        exact ih (Memory.wf_tail hm)

/-- A cell listed after a write was listed before, or is the one written. -/
theorem Memory.mem_write {m : Memory} {a : Nat} {v : Word} {c : Nat × Word} (h : c ∈ m.write a v) :
    c ∈ m ∨ (c = (a, v) ∧ v ≠ Config.resetCell) := by
  induction m with
  | nil =>
    simp only [Memory.write] at h
    split at h <;> simp_all
  | cons e m ih =>
    obtain ⟨k, u⟩ := e
    simp only [Memory.write] at h
    split at h
    · split at h <;> simp_all
      tauto
    · split at h
      · split at h <;> simp_all
        tauto
      · rcases List.mem_cons.1 h with rfl | h
        · simp
        · rcases ih h with h | h
          · exact .inl (List.mem_cons_of_mem _ h)
          · exact .inr h

/-- A write of an existing cell keeps the canonical form. -/
theorem Memory.wf_write {m : Memory} (hm : m.wf) {a : Nat} (ha : a < Config.memSize) (v : Word) : (m.write a v).wf := by
  refine ⟨?_, fun c hc => ?_⟩
  · induction m with
    | nil => simp only [Memory.write]; split <;> simp
    | cons c m ih =>
      obtain ⟨k, u⟩ := c
      have below : ∀ e ∈ m, k < e.1 := (List.pairwise_cons.1 hm.1).1
      simp only [Memory.write]
      split
      · rename_i hk
        split
        · exact hm.1
        · refine List.pairwise_cons.2 ⟨fun e he => ?_, hm.1⟩
          rcases List.mem_cons.1 he with rfl | he
          · exact hk
          · exact Nat.lt_trans hk (below e he)
      · split
        · rename_i hk
          split
          · exact (Memory.wf_tail hm).1
          · exact List.pairwise_cons.2 ⟨fun e he => hk ▸ below e he, (Memory.wf_tail hm).1⟩
        · rename_i hlt hne
          refine List.pairwise_cons.2 ⟨fun e he => ?_, ih (Memory.wf_tail hm)⟩
          rcases Memory.mem_write he with he | ⟨rfl, -⟩
          · exact below e he
          · show k < a
            omega
  · rcases Memory.mem_write hc with hc | ⟨rfl, hv⟩
    · exact hm.2 c hc
    · exact ⟨ha, hv⟩

/-- What a cell reads as after a write to the state's memory (R40). -/
theorem memWrite_memRead {s : State} (hs : s.mem.wf) (a b : Addr) (v : Word) :
    (s.memWrite a v).memRead b = if b = a then v else s.memRead b := by
  split
  · rename_i h
    subst h
    exact Memory.read_write_same hs _ v
  · rename_i h
    exact Memory.read_write_other _ v fun e => h (BitVec.eq_of_toNat_eq e)

/-- The same for another cell, whatever the form of the memory. -/
theorem memWrite_memRead_other (s : State) {a b : Addr} (v : Word) (h : b ≠ a) :
    (s.memWrite a v).memRead b = s.memRead b :=
  Memory.read_write_other _ v fun e => h (BitVec.eq_of_toNat_eq e)

/-- Every write through an 8-bit address keeps the canonical form. -/
theorem memWrite_wf {s : State} (hs : s.mem.wf) (a : Addr) (v : Word) : (s.memWrite a v).mem.wf :=
  Memory.wf_write hs a.isLt v

end Sys2Proof.Machine
end

