-- ==== Sys2Proof/Laws/PerInstr.lean ====
section
/-! SUPPORT. Facts about every instruction as syntax, one lemma for each constructor. -/

namespace Sys2Proof.Laws.EncodedOpcode

/-- The encoder writes the number of the instruction's own row in the top digit (30_encoding.md R54), and the instruction is
well formed (R57). -/
def Statement (i : Instr) : Prop := (fieldsOf (encode i)).op = i.opCode ∧ i.wf = true

theorem ofRegs (c : OpCode) (d s t : RegIdx) : (fieldsOf (digits c.number d s t)).op = c := by
  rw [fieldsOf_digits]; exact ofNumber_number c

theorem ofAddress (c : OpCode) (d : RegIdx) (a : Addr) : (fieldsOf (digitsAddress c.number d a)).op = c :=
  (fieldsOf_digitsAddress c.number d a).1.trans (ofNumber_number c)

theorem halt : Statement .halt := ⟨ofRegs _ _ _ _, Instr.wf_true _⟩
theorem add (d s t : RegIdx) : Statement (.add d s t) := ⟨ofRegs _ _ _ _, Instr.wf_true _⟩
theorem subtract (d s t : RegIdx) : Statement (.subtract d s t) := ⟨ofRegs _ _ _ _, Instr.wf_true _⟩
theorem and (d s t : RegIdx) : Statement (.and d s t) := ⟨ofRegs _ _ _ _, Instr.wf_true _⟩
theorem xor (d s t : RegIdx) : Statement (.xor d s t) := ⟨ofRegs _ _ _ _, Instr.wf_true _⟩
theorem shiftLeft (d s t : RegIdx) : Statement (.shiftLeft d s t) := ⟨ofRegs _ _ _ _, Instr.wf_true _⟩
theorem shiftRight (d s t : RegIdx) : Statement (.shiftRight d s t) := ⟨ofRegs _ _ _ _, Instr.wf_true _⟩
theorem loadAddress (d : RegIdx) (address : Addr) : Statement (.loadAddress d address) := ⟨ofAddress _ _ _, Instr.wf_true _⟩
theorem load (d : RegIdx) (address : Addr) : Statement (.load d address) := ⟨ofAddress _ _ _, Instr.wf_true _⟩
theorem store (d : RegIdx) (address : Addr) : Statement (.store d address) := ⟨ofAddress _ _ _, Instr.wf_true _⟩
theorem loadIndirect (d t : RegIdx) : Statement (.loadIndirect d t) := ⟨ofRegs _ _ _ _, Instr.wf_true _⟩
theorem storeIndirect (d t : RegIdx) : Statement (.storeIndirect d t) := ⟨ofRegs _ _ _ _, Instr.wf_true _⟩
theorem branchZero (d : RegIdx) (address : Addr) : Statement (.branchZero d address) := ⟨ofAddress _ _ _, Instr.wf_true _⟩
theorem branchPositive (d : RegIdx) (address : Addr) : Statement (.branchPositive d address) := ⟨ofAddress _ _ _, Instr.wf_true _⟩
theorem jumpRegister (d : RegIdx) : Statement (.jumpRegister d) := ⟨ofRegs _ _ _ _, Instr.wf_true _⟩
theorem jumpAndLink (d : RegIdx) (address : Addr) : Statement (.jumpAndLink d address) := ⟨ofAddress _ _ _, Instr.wf_true _⟩

end Sys2Proof.Laws.EncodedOpcode
end

