-- ==== Sys2Proof/Laws/Trap.lean ====
section
/-! SUPPORT. What the address check, the two transfers and the phases of a step can do, each said once. -/

namespace Sys2Proof.Machine

/-- Naming no cell, in numbers (20_memory.md R37). -/
theorem maxCell_lt_iff (v : Word) : Config.maxCell < v ↔ 255 < v.toNat := Iff.rfl

theorem zext16_toNat (a : Addr) : (zext16 a).toNat = a.toNat := by
  have := a.isLt
  simp only [zext16, BitVec.toNat_setWidth]
  omega

theorem cellOf_toNat (v : Word) : (cellOf v).toNat = v.toNat % 256 := by
  simp only [cellOf, lowByte, BitVec.toNat_setWidth]

/-- An 8-bit address passes the address check (20_memory.md R37). -/
theorem addressCheck_zext16 (k : AccessKind) (a : Addr) : addressCheck (some ⟨k, zext16 a⟩) = none := by
  have := a.isLt
  simp only [addressCheck, ite_eq_right_iff, reduceCtorEq, imp_false, maxCell_lt_iff, zext16_toNat]
  omega

/-- An access passes the address check exactly when its address names a cell (R164). -/
theorem addressCheck_some (k : AccessKind) (v : Word) :
    addressCheck (some ⟨k, v⟩) = if Config.maxCell < v then some (.outOfRange v) else none := rfl

/-- An 8-bit address, as a whole word, is the port's exactly when it is 0xFF. -/
theorem zext16_eq_ioWord (a : Addr) : zext16 a = Config.ioWord ↔ a = 0xFF := by
  constructor
  · intro h
    have h' : (zext16 a).toNat = 255 := congrArg BitVec.toNat h
    exact BitVec.eq_of_toNat_eq ((zext16_toNat a).symm.trans h')
  · rintro rfl
    rfl

@[simp] theorem cellOf_zext16 (a : Addr) : cellOf (zext16 a) = a := by
  apply BitVec.eq_of_toNat_eq
  have := a.isLt
  rw [cellOf_toNat, zext16_toNat]
  omega

/-- Below the limit of the address check nothing is lost in naming the cell (R37). -/
theorem zext16_cellOf {v : Word} (h : ¬ Config.maxCell < v) : zext16 (cellOf v) = v := by
  apply BitVec.eq_of_toNat_eq
  rw [maxCell_lt_iff] at h
  rw [zext16_toNat, cellOf_toNat]
  omega

/-- The cell that an address names is the port exactly when the whole address is 0x00FF (R153). -/
theorem cellOf_eq_ioAddr {v : Word} (h : ¬ Config.maxCell < v) : cellOf v = Config.ioAddr ↔ v = Config.ioWord := by
  rw [show Config.ioAddr = 0xFF from rfl, ← zext16_eq_ioWord, zext16_cellOf h]

/-- The read transfer against an empty queue fails (R162). -/
theorem readTransfer_empty {s : State} (h : s.input = []) : readTransfer s = .error .inputExhausted := by
  simp only [readTransfer, State.nextInput, h]

/-- The read transfer moves the head of the queue to `M[0xFF]` (R151). -/
theorem readTransfer_cons {s : State} {v : Word} {rest : List Word} (h : s.input = v :: rest) :
    readTransfer s = .ok (({ s with input := rest } : State).memWrite Config.ioAddr v) := by
  simp only [readTransfer, State.nextInput, h]

/-- A pre-execute check that passes leaves the state alone, or it was a read of the port that pulled one word. -/
theorem preTrap_ok {acc : Option Access} {s t : State} (h : preTrap acc s = .ok t) :
    (t = s ∧ acc ≠ some ⟨.read, Config.ioWord⟩) ∨
    (acc = some ⟨.read, Config.ioWord⟩ ∧ ∃ v rest, s.input = v :: rest ∧
      t = ({ s with input := rest } : State).memWrite Config.ioAddr v) := by
  match acc, h with
  | none, h => exact .inl ⟨(Except.ok.inj h).symm, by simp⟩
  | some ⟨.write, _⟩, h => exact .inl ⟨(Except.ok.inj h).symm, by simp⟩
  | some ⟨.read, a⟩, h =>
    simp only [preTrap] at h
    split at h
    · rename_i ha
      subst ha
      cases hi : s.input with
      | nil => simp [readTransfer_empty hi] at h
      | cons v rest =>
        rw [readTransfer_cons hi] at h
        exact .inr ⟨rfl, v, rest, rfl, (Except.ok.inj h).symm⟩
    · rename_i ha
      exact .inl ⟨(Except.ok.inj h).symm, by simp [ha]⟩

/-- The pre-execute check fails only on a read of the port with `IN` empty (R151). -/
theorem preTrap_error {acc : Option Access} {s : State} {e : Fault} (h : preTrap acc s = .error e) :
    e = .inputExhausted ∧ acc = some ⟨.read, Config.ioWord⟩ ∧ s.input = [] := by
  match acc, h with
  | some ⟨.read, a⟩, h =>
    simp only [preTrap] at h
    split at h
    · rename_i ha
      subst ha
      cases hi : s.input with
      | nil => exact ⟨by simpa [readTransfer_empty hi] using h.symm, rfl, rfl⟩
      | cons v rest => simp [readTransfer_cons hi] at h
    · simp at h

/-- The pre-execute check touches the queue and memory only. -/
theorem preTrap_frame {acc : Option Access} {s t : State} (h : preTrap acc s = .ok t) :
    t.pc = s.pc ∧ t.regs = s.regs ∧ t.running = s.running ∧ t.output = s.output := by
  rcases preTrap_ok h with ⟨rfl, -⟩ | ⟨-, v, rest, -, rfl⟩ <;> exact ⟨rfl, rfl, rfl, rfl⟩

/-- The trigger of the read transfer, in terms of the access (R151). -/
theorem access_eq_portRead {i : Instr} {s : State} : access i s = some ⟨.read, Config.ioWord⟩ ↔ ReadsPort i s := by
  cases i <;> simp [access, accessMode, ReadsPort, AddrMode.effective, zext16_eq_ioWord]
  all_goals rfl

/-- The trigger of the write transfer, in terms of the access (R152). -/
theorem access_eq_portWrite {i : Instr} {s : State} : access i s = some ⟨.write, Config.ioWord⟩ ↔ WritesPort i s := by
  cases i <;> simp [access, accessMode, WritesPort, AddrMode.effective, zext16_eq_ioWord]
  all_goals rfl

/-- The phases of an instruction that accesses no data memory: no check triggers. -/
theorem cycle_noAccess {i : Instr} (h : accessMode i = none) (f : State → Executed) (s : State) :
    cycle i f s = .next (finish none (f s)) := by
  simp only [cycle, access, h, Option.map_none, addressCheck, preTrap]

/-- The phases of an instruction that completes. -/
theorem cycle_next {i : Instr} {f : State → Executed} {s t : State} (h : cycle i f s = .next t) :
    addressCheck (access i s) = none ∧
    ∃ s', preTrap (access i s) s = .ok s' ∧ t = finish (access i s) (f s') := by
  simp only [cycle] at h
  split at h
  · cases h
  · rename_i hc
    split at h
    · cases h
    · rename_i s' hp
      cases h
      exact ⟨hc, s', hp, rfl⟩

/-- The phases of an instruction that fails: the address check first, then the pre-execute check (R166). -/
theorem cycle_fault {i : Instr} {f : State → Executed} {s : State} {e : Fault} (h : cycle i f s = .fault e) :
    addressCheck (access i s) = some e ∨
    (addressCheck (access i s) = none ∧ preTrap (access i s) s = .error e) := by
  simp only [cycle, raise] at h
  split at h
  · rename_i e' hc
    cases h
    exact .inl hc
  · rename_i hc
    split at h
    · rename_i e' hp
      cases h
      exact .inr ⟨hc, hp⟩
    · cases h

/-- No phase refuses. -/
theorem cycle_not_refused (i : Instr) (f : State → Executed) (s : State) (r : Refusal) : cycle i f s ≠ .refused r := by
  simp only [cycle, raise]
  split
  · simp
  · split <;> simp

/-- A finished step of an instruction that continues: normalised, and at most one word emitted. -/
theorem finish_continue (acc : Option Access) (s : State) :
    finish acc (s, true) = s.normalise ∧ (∀ a, acc = some ⟨.write, a⟩ → a ≠ Config.ioWord) ∨
    finish acc (s, true) = s.normalise.emitOutput (s.memRead Config.ioAddr) ∧ acc = some ⟨.write, Config.ioWord⟩ := by
  match acc with
  | none => exact .inl ⟨rfl, by simp⟩
  | some ⟨.read, _⟩ => exact .inl ⟨rfl, by simp⟩
  | some ⟨.write, a⟩ =>
    by_cases h : a = Config.ioWord
    · subst h
      exact .inr ⟨by simp [finish, postTrap, writeTransfer], rfl⟩
    · exact .inl ⟨by simp [finish, postTrap, h], by simpa using h⟩

/-- The end of a step of an instruction that continues touches register 0 and `OUT` only. -/
theorem finish_frame (acc : Option Access) (s : State) :
    (finish acc (s, true)).pc = s.pc ∧ (finish acc (s, true)).regs = s.normalise.regs ∧
    (finish acc (s, true)).mem = s.mem ∧ (finish acc (s, true)).running = s.running ∧
    (finish acc (s, true)).input = s.input := by
  rcases finish_continue acc s with ⟨h, -⟩ | ⟨h, -⟩ <;> rw [h] <;> exact ⟨rfl, rfl, rfl, rfl, rfl⟩

end Sys2Proof.Machine
end

