-- ==== Sys2Proof/Laws/Step.lean ====
section
/-! SUPPORT. What `exec` and `step` can do, each said once. -/

namespace Sys2Proof.Machine

/-- The executor's rule that an instruction selects (40_step_cycle.md R79). -/
def executorOf (i : Instr) : State → Executed :=
  match i with
  | .halt => applyHalt
  | .add d x y => applyAlu aluAdd d x y
  | .subtract d x y => applyAlu aluSubtract d x y
  | .and d x y => applyAlu aluAnd d x y
  | .xor d x y => applyAlu aluXor d x y
  | .shiftLeft d x y => applyAlu aluShiftLeft d x y
  | .shiftRight d x y => applyAlu aluShiftRight d x y
  | .loadAddress d a => applyLoadAddress d a
  | .load d a => applyLoad d (.absolute a)
  | .store d a => applyStore d (.absolute a)
  | .loadIndirect d t => applyLoad d (.indirect t)
  | .storeIndirect d t => applyStore d (.indirect t)
  | .branchZero d a => applyBranch isZero d a
  | .branchPositive d a => applyBranch isPositive d a
  | .jumpRegister d => applyJumpRegister d
  | .jumpAndLink d a => applyJumpAndLink d a

/-- Every instruction's meaning is its executor's rule within the phases common to all. -/
theorem exec_eq_cycle (i : Instr) (s : State) : exec i s = cycle i (executorOf i) s := by
  cases i <;> rfl

/-- The executor continues for every instruction but Halt (R79). -/
theorem executorOf_continue (i : Instr) (s : State) : (executorOf i s).2 = true ↔ i ≠ .halt := by
  cases i <;> simp [executorOf, applyHalt, applyAlu, applyLoadAddress, applyLoad, applyStore, applyBranch,
    applyJumpRegister, applyJumpAndLink]

/-- The executor knows nothing of the stream and does not touch `running` (R79). -/
theorem executorOf_frame (i : Instr) (s : State) :
    (executorOf i s).1.input = s.input ∧ (executorOf i s).1.output = s.output ∧
    (executorOf i s).1.running = s.running := by
  cases i <;> simp [executorOf, applyHalt, applyAlu, applyLoadAddress, applyLoad, applyStore, applyBranch,
    applyJumpRegister, applyJumpAndLink] <;> split <;> simp

/-- An instruction that does not access memory for writing leaves it alone. -/
theorem executorOf_mem (i : Instr) (s : State) :
    (executorOf i s).1.mem = s.mem ∨ ∃ m v, accessMode i = some (.write, m) ∧ (executorOf i s).1 = s.memWrite (m.cell s) v := by
  cases i <;> simp [executorOf, applyHalt, applyAlu, applyLoadAddress, applyLoad, applyStore, applyBranch,
    applyJumpRegister, applyJumpAndLink, accessMode]
  case branchZero d a => split <;> simp
  case branchPositive d a => split <;> simp

/-- No instruction is refused. -/
theorem exec_not_refused (i : Instr) (s : State) (r : Refusal) : exec i s ≠ .refused r := by
  rw [exec_eq_cycle]
  exact cycle_not_refused i _ s r

/-- What a step that answers a next state can have done. -/
theorem step_next {s t : State} (h : step s = .next t) :
    (s.running = false ∧ t = s) ∨ (s.running = true ∧ exec (fetched s) s.advancePc = .next t) := by
  simp only [step] at h
  split at h
  · rename_i hr
    exact .inr ⟨hr, h⟩
  · rename_i hr
    cases h
    exact .inl ⟨by simpa using hr, rfl⟩

/-- A step fails only while Running, in the instruction it fetched. -/
theorem step_fault {s : State} {e : Fault} (h : step s = .fault e) :
    s.running = true ∧ exec (fetched s) s.advancePc = .fault e := by
  simp only [step] at h
  split at h
  · rename_i hr
    exact ⟨hr, h⟩
  · cases h

end Sys2Proof.Machine
end

