-- ==== Sys2Proof/Tests/Slice0.lean ====
section
/-! SUPPORT. The model's own tests: the decoder on words written out from the spec, the well-formedness checks on ill-formed
terms, single steps with the vectors of 95_test_vectors.md (its identifier in each comment), and for every statement with
hypotheses a state and operands that meet them. -/

namespace Sys2Proof.Tests

open Sys2Proof Sys2Proof.Machine

/-! ## Decoding: one word for each constructor, from the tables of 95_test_vectors.md 2.1 to 2.5 -/

theorem test_decode_halt : decode 0x0FFF = .halt := by decide
theorem test_decode_add : decode 0x1CCB = .add 0xC 0xC 0xB := by decide
theorem test_decode_subtract : decode 0x2AA1 = .subtract 0xA 0xA 0x1 := by decide
theorem test_decode_and : decode 0x3123 = .and 0x1 0x2 0x3 := by decide
theorem test_decode_xor : decode 0x4FED = .xor 0xF 0xE 0xD := by decide
theorem test_decode_shiftLeft : decode 0x5BA1 = .shiftLeft 0xB 0xA 0x1 := by decide
theorem test_decode_shiftRight : decode 0x6123 = .shiftRight 0x1 0x2 0x3 := by decide
theorem test_decode_loadAddress : decode 0x7130 = .loadAddress 0x1 0x30 := by decide
theorem test_decode_load : decode 0x8AFF = .load 0xA 0xFF := by decide
theorem test_decode_store : decode 0x9CFF = .store 0xC 0xFF := by decide
theorem test_decode_loadIndirect : decode 0xA6F5 = .loadIndirect 0x6 0x5 := by decide
theorem test_decode_storeIndirect : decode 0xB207 = .storeIndirect 0x2 0x7 := by decide
theorem test_decode_branchZero : decode 0xCA18 = .branchZero 0xA 0x18 := by decide
theorem test_decode_branchPositive : decode 0xD230 = .branchPositive 0x2 0x30 := by decide
theorem test_decode_jumpRegister : decode 0xEFAB = .jumpRegister 0xF := by decide
theorem test_decode_jumpAndLink : decode 0xFF30 = .jumpAndLink 0xF 0x30 := by decide
theorem test_decodeTableWord : decodeTableWord 16 0x08FF = some .halt ∧ decodeTableWord 16 0xFFFF = some (.jumpAndLink 0xF 0xFF) := by
  decide

/-! ## Well-formedness: each check refuses an ill-formed term -/

theorem test_wf_fields : (Fields.mk .load 0x8 0x3 0x4 0x34).wf = true ∧ (Fields.mk .load 0x8 0x3 0x4 0x43).wf = false := by decide
theorem test_wf_instr : (Instr.store 0xF 0xFF).wf = true := by decide
theorem test_wf_rawRegIdx : rawRegIdx? 15 = some 0xF ∧ rawRegIdx? 16 = none := by decide
theorem test_wf_rawWord : rawWord? 0xFFFF = some 0xFFFF ∧ rawWord? 0x10000 = none := by decide
theorem test_wf_rawAddr : rawAddr? 255 = some 0xFF ∧ rawAddr? 256 = none := by decide
theorem test_wf_rawLoadPair : rawLoadPair? (0x19, 0x9CFF) = some (0x19, 0x9CFF) ∧ rawLoadPair? (256, 0) = none ∧
    rawLoadPair? (0, 0x10000) = none := by decide
theorem test_wf_memory : ¬ Memory.wf [(5, 1), (4, 1)] ∧ ¬ Memory.wf [(5, 0)] ∧ ¬ Memory.wf [(256, 1)] ∧ Memory.wf [(4, 1), (255, 2)] := by
  decide

/-! ## Single steps -/

/-- The start state of the vectors: reset, Running, `pc` = `p`, the word at `M[p]`. -/
def start (w : Word) (p : Addr := 0x20) : State := placeWord (State.reset.setPc p) w

/-- The same with registers set. -/
def withRegs (s : State) (regs : List (RegIdx × Word)) : State := regs.foldl (fun s r => s.setReg r.1 r.2) s

/-- The step completes in a state that passes the check. -/
def after (s : State) (check : State → Bool) : Bool :=
  match step s with
  | .next t => check t
  | _ => false

/-- The step fails with this condition. -/
def failsWith (s : State) (e : Fault) : Bool :=
  match step s with
  | .fault f => f == e
  | _ => false

/-- V-H2. -/
theorem test_halt_wraps_and_pulls_nothing :
    after (supplyInput (start 0x0FFF 0xFF) [1]) (fun t => t.pc == 0x00 && !t.running && t.input == [1]) = true := by decide
/-- V-H4. -/
theorem test_halted_is_idle : stepRequest (State.reset.setPc 0x20) = (.idle, State.reset.setPc 0x20) := by decide
/-- V-ADD1. -/
theorem test_add_loses_carry : after (withRegs (start 0x1123) [(2, 0xFFFF), (3, 1)]) (fun t => t.reg 1 == 0 && t.pc == 0x21) = true := by
  decide
/-- V-ADD5. -/
theorem test_add_to_register_zero : after (withRegs (start 0x1023) [(2, 5), (3, 6)]) (fun t => t.reg 0 == 0) = true := by decide
/-- V-SUB1. -/
theorem test_subtract_negative : after (withRegs (start 0x2123) [(2, 0x19), (3, 0x20)]) (fun t => t.reg 1 == 0xFFF9) = true := by decide
/-- V-SUB4. -/
theorem test_subtract_wraps : after (withRegs (start 0x2123) [(2, 0x7FFF), (3, 0xFFFF)]) (fun t => t.reg 1 == 0x8000) = true := by decide
/-- V-AND1. -/
theorem test_and : after (withRegs (start 0x3123) [(2, 0xF0F0), (3, 0x3C3C)]) (fun t => t.reg 1 == 0x3030) = true := by decide
/-- V-XOR1. -/
theorem test_xor : after (withRegs (start 0x4123) [(2, 0xF0F0), (3, 0x3C3C)]) (fun t => t.reg 1 == 0xCCCC) = true := by decide
/-- V-SHL7: an amount of 17 is not 1. -/
theorem test_shiftLeft_amount_17 : after (withRegs (start 0x5123) [(2, 1), (3, 0x11)]) (fun t => t.reg 1 == 0) = true := by decide
/-- V-SHL8. -/
theorem test_shiftLeft_by_itself : after (withRegs (start 0x5122) [(2, 3)]) (fun t => t.reg 1 == 0x18) = true := by decide
/-- V-SHR2: zeros enter. -/
theorem test_shiftRight_is_logical : after (withRegs (start 0x6123) [(2, 0x8000), (3, 0xF)]) (fun t => t.reg 1 == 1) = true := by decide
/-- V-SHR5. -/
theorem test_shiftRight_amount_32768 : after (withRegs (start 0x6123) [(2, 0x8000), (3, 0x8000)]) (fun t => t.reg 1 == 0) = true := by
  decide
/-- V-LDA2. -/
theorem test_loadAddress_of_ff_moves_nothing :
    after (supplyInput (withRegs (start 0x71FF) [(1, 0x1234)]) [7]) (fun t => t.reg 1 == 0xFF && t.input == [7] && t.memRead 0xFF == 0) = true := by
  decide
/-- V-LD2. -/
theorem test_load_pulls_input :
    after (supplyInput ((start 0x83FF).memWrite 0xFF 0x1111) [0x2222, 0x3333])
      (fun t => t.reg 3 == 0x2222 && t.memRead 0xFF == 0x2222 && t.input == [0x3333]) = true := by decide
/-- V-LD3. -/
theorem test_load_input_exhausted :
    stepRequest ((start 0x83FF).memWrite 0xFF 0x1111) = (.failed .inputExhausted, (start 0x83FF).memWrite 0xFF 0x1111) := by decide
/-- V-ST3. -/
theorem test_store_zero_emits_zero :
    after ((start 0x90FF).memWrite 0xFF 0x7777) (fun t => t.memRead 0xFF == 0 && t.output == [0]) = true := by decide
/-- V-ST5. -/
theorem test_store_over_itself : after (withRegs (start 0x9320) [(3, 0x1234)]) (fun t => t.memRead 0x20 == 0x1234 && t.pc == 0x21) = true := by
  decide
/-- V-LDI7: the loaded 0x00FF is no address in this step. -/
theorem test_loadIndirect_same_register :
    after ((withRegs (start 0xA505) [(5, 0x42)]).memWrite 0x42 0xFF) (fun t => t.reg 5 == 0xFF) = true := by decide
/-- V-LDI6: low byte 0xFF, yet out of range and no word pulled. -/
theorem test_loadIndirect_out_of_range : failsWith (supplyInput (withRegs (start 0xA605) [(5, 0x1FF)]) [1]) (.outOfRange 0x1FF) = true := by
  decide
/-- V-STI1. -/
theorem test_storeIndirect_to_port :
    after (withRegs (start 0xB207) [(7, 0xFF), (2, 0x48)]) (fun t => t.memRead 0xFF == 0x48 && t.output == [0x48]) = true := by decide
/-- V-STI3. -/
theorem test_storeIndirect_out_of_range : failsWith (withRegs (start 0xB207) [(7, 0x100), (2, 0x48)]) (.outOfRange 0x100) = true := by
  decide
/-- V-BZ6: not taken, and the fall-through wraps. -/
theorem test_branchZero_not_taken : after (withRegs (start 0xC300 0xFF) [(3, 1)]) (fun t => t.pc == 0x00) = true := by decide
/-- V-BZ1. -/
theorem test_branchZero_taken : after (start 0xCA18 0x14) (fun t => t.pc == 0x18) = true := by decide
/-- V-BP2: unsigned. -/
theorem test_branchPositive_unsigned : after (withRegs (start 0xD230) [(2, 0x8000)]) (fun t => t.pc == 0x30) = true := by decide
/-- V-BP4. -/
theorem test_branchPositive_zero : after (start 0xD230) (fun t => t.pc == 0x21) = true := by decide
/-- V-JR2. -/
theorem test_jumpRegister_masks : after (withRegs (start 0xEFAB) [(0xF, 0x1234)]) (fun t => t.pc == 0x34) = true := by decide
/-- V-JL2: the link wraps. -/
theorem test_jumpAndLink_at_ff : after (withRegs (start 0xFF30 0xFF) [(0xF, 0xAAAA)]) (fun t => t.reg 0xF == 0 && t.pc == 0x30) = true := by
  decide
/-- V-JL4. -/
theorem test_jumpAndLink_to_itself : after (start 0xF112 0x12) (fun t => t.reg 1 == 0x13 && t.pc == 0x12) = true := by decide
/-- V-HOST1 and V-HOST2. -/
theorem test_host_reset_is_halted : (hostOp .step State.reset).1 = .stepped .idle ∧
    (hostOp .step (State.reset.setRunning true)) = (.stepped .halted, State.reset.setPc 1) := by decide
/-- V-HOST3, V-HOST4, V-HOST5. -/
theorem test_host_setReg_and_load : (hostOp (.setReg 0 0x1234) State.reset).2 = State.reset ∧
    (hostOp (.load [(0x05, 0x1111), (0xFF, 0x1234), (0x05, 0x2222)]) State.reset).2 =
      { State.reset with mem := [(0x05, 0x2222), (0xFF, 0x1234)] } := by decide
/-- R131: SET_PC during a RUN that has not returned does not happen; the stream's owner may act (R144). -/
theorem test_host_waits_for_run :
    session [.host (.run 1), .host (.setPc 0x55), .stream (.supply [7])] (.ready (start 0xC020)) =
      ⟨supplyInput (start 0xC020) [7], true⟩ := by decide
/-- A word placed for the fetch is fetched and run, first after reset. -/
theorem test_withFetchWord : after (State.reset.withFetchWord 16 0x7130) (fun t => t.reg 1 == 0x30 && t.pc == 1) = true := by decide

/-! ## Witnesses: what meets the hypotheses of the statements -/

theorem witness_ignoredBits :
    ((0x0000 : Word) &&& (decode 0x0000).opCode.operandClass.meaningfulBits = 0x0FFF &&& (decode 0x0000).opCode.operandClass.meaningfulBits) ∧
    ((0xA605 : Word) &&& (decode 0xA605).opCode.operandClass.meaningfulBits = 0xA6F5 &&& (decode 0xA605).opCode.operandClass.meaningfulBits) ∧
    ((0xEF00 : Word) &&& (decode 0xEF00).opCode.operandClass.meaningfulBits = 0xEFAB &&& (decode 0xEF00).opCode.operandClass.meaningfulBits) := by
  decide

/-- StepRunsTheFetchedInstruction. -/
theorem witness_running : (start 0x1123 0xFF).running = true := by decide

/-- HaltedMachineDoesNothing, OnlySetRunningWakesTheMachine. -/
theorem witness_halted : (Session.ready State.reset).state.running = false ∧ ExternalOp.host .step ≠ .host (.setRunning true) ∧
    ExternalOp.stream .readOutput ≠ .host (.setRunning true) := by decide

/-- CompletedStepSetsPc, OnlyHaltEndsRunning, NonHaltingStepClearsRegisterZero: an instruction that continues, and Halt. -/
theorem witness_completed_step :
    ((start 0x1023).running = true ∧ fetched (start 0x1023) ≠ .halt ∧ ∃ t, step (start 0x1023) = .next t) ∧
    ((start 0x0000).running = true ∧ fetched (start 0x0000) = .halt ∧ ∃ t, step (start 0x0000) = .next t) :=
  ⟨⟨by decide, by decide, _, rfl⟩, ⟨by decide, by decide, _, rfl⟩⟩

/-- StepKeepsInvariant, SessionKeepsInvariant: a running state, with words in memory, that meets the invariant and steps. -/
theorem witness_invariant : (start 0x93FF).Inv ∧ ∃ t, step (start 0x93FF) = .next t := ⟨⟨by decide, by decide⟩, _, rfl⟩

/-- ResetLeavesEverythingZero: the state after RESET of a machine that has run. -/
theorem witness_reset : State.reset = State.reset ∧ hostReset (start 0x1123) = (hostOp .reset (start 0x1123)).2 := ⟨rfl, rfl⟩

/-- RegisterUseIsTheTable: a completed instruction and a register it does not write; and another register file that agrees on the
registers it reads. -/
theorem witness_register_use :
    (∃ t, exec (.add 1 2 3) (start 0x1123) = .next t) ∧ (2 : RegIdx) ∉ writesRegs (.add 1 2 3) ∧
    ∀ r ∈ readsRegs (.add 1 2 3), (withRegs (start 0x1123) [(1, 7)]).regs[r] = (start 0x1123).reg r :=
  ⟨⟨_, rfl⟩, by decide, by decide⟩

/-- MemoryChangesOnlyWhereStored: a store, and a cell beside the one stored to. -/
theorem witness_other_cell :
    (∃ t, exec (.store 3 0xFE) (start 0x93FE) = .next t) ∧ ¬ StoresTo (.store 3 0xFE) (start 0x93FE) 0xFF ∧
    ¬ (ReadsPort (.store 3 0xFE) (start 0x93FE) ∧ (0xFF : Addr) = 0xFF) := by
  refine ⟨⟨_, rfl⟩, ?_, ?_⟩
  · rintro ⟨m, hm, ha⟩
    cases hm
    exact absurd ha (by decide)
  · rintro ⟨⟨d, h⟩ | ⟨d, r, h, -⟩, -⟩ <;> cases h

/-- StreamMovesOneWordAtThePort: the three cases, and a host operation that is neither STEP nor RUN. -/
theorem witness_stream :
    (∃ t, exec (.load 3 0xFF) (supplyInput (start 0x83FF) [5]) = .next t ∧ ReadsPort (.load 3 0xFF) (supplyInput (start 0x83FF) [5])) ∧
    (∃ t, exec (.store 3 0xFF) (start 0x93FF) = .next t ∧ WritesPort (.store 3 0xFF) (start 0x93FF)) ∧
    (∃ t, exec .halt (start 0x08FF) = .next t ∧ ¬ ReadsPort .halt (start 0x08FF) ∧ ¬ WritesPort .halt (start 0x08FF)) ∧
    HostOp.observe ≠ .step ∧ ∀ fuel, HostOp.observe ≠ .run fuel := by
  refine ⟨⟨_, rfl, .inl ⟨3, rfl⟩⟩, ⟨_, rfl, .inl ⟨3, rfl⟩⟩, ⟨_, rfl, ?_, ?_⟩, by decide, fun _ h => by cases h⟩
  · rintro (⟨d, h⟩ | ⟨d, r, h, -⟩) <;> cases h
  · rintro (⟨d, h⟩ | ⟨d, r, h, -⟩) <;> cases h

/-- LaterInputDoesNotChangeAStep. -/
theorem witness_step_with_input : ∃ t, step (supplyInput (start 0x83FF) [5]) = .next t := ⟨_, rfl⟩

/-- MemoryIsDeterminedByItsCells. -/
theorem witness_equal_memories :
    Memory.wf (Memory.write [(0x20, 1)] 0xFF 2) ∧ Memory.wf [(0x20, 1), (0xFF, 2)] ∧
    ∀ a < Config.memSize, Memory.read (Memory.write [(0x20, 1)] 0xFF 2) a = Memory.read [(0x20, 1), (0xFF, 2)] a :=
  ⟨by decide, by decide, fun _ _ => rfl⟩

/-- StoreIsSeenByTheNextFetch: V-ST4 in both addressing modes. -/
theorem witness_self_modification :
    ((start 0x9321).running = true ∧ (start 0x9321).mem.wf ∧
      ∃ t, step (start 0x9321) = .next t ∧ fetched (start 0x9321) = .store 3 t.pc) ∧
    ((withRegs (start 0xB307) [(7, 0x21)]).running = true ∧ (withRegs (start 0xB307) [(7, 0x21)]).mem.wf ∧
      ∃ t, step (withRegs (start 0xB307) [(7, 0x21)]) = .next t ∧ fetched (withRegs (start 0xB307) [(7, 0x21)]) = .storeIndirect 3 7 ∧
        ((withRegs (start 0xB307) [(7, 0x21)]).reg 7).toNat = t.pc.toNat) :=
  ⟨⟨by decide, by decide, _, rfl, by decide⟩, ⟨by decide, by decide, _, rfl, by decide, by decide⟩⟩

/-- AluInstructionsShareOneShape, AluSourcesAreReadFirst, ShiftLeftMultipliesByAPower, ShiftRightDividesByAPower: the amount 16. -/
theorem witness_alu : Instr.xor ∈ [Instr.add, Instr.subtract, Instr.and, Instr.xor, Instr.shiftLeft, Instr.shiftRight] ∧
    (1 : RegIdx) ≠ 0 ∧ 16 ≤ ((withRegs (start 0x5123) [(3, 0x10)]).reg 3).toNat :=
  ⟨by simp, by decide, by decide⟩

/-- LoadWritesTheCellsWord: each clause, at the addresses where they meet. -/
theorem witness_load : (0xFE : Addr) ≠ 0xFF ∧ (start 0x83FF).input = [] ∧ (start 0x83FF).mem.wf ∧
    (supplyInput (start 0x83FF) [5, 6]).input = 5 :: [6] := by decide

/-- LoadIndirectWritesTheCellsWord: each clause, at the values where they meet. -/
theorem witness_loadIndirect :
    ((withRegs (start 0xA605) [(5, 0xFE)]).reg 5).toNat < 0x00FF ∧
    ((withRegs (start 0xA605) [(5, 0xFF)]).reg 5 = 0x00FF ∧ (withRegs (start 0xA605) [(5, 0xFF)]).input = []) ∧
    ((withRegs (start 0xA605) [(5, 0xFF)]).mem.wf ∧ (supplyInput (withRegs (start 0xA605) [(5, 0xFF)]) [9]).input = 9 :: []) ∧
    0x00FF < ((withRegs (start 0xA605) [(5, 0x100)]).reg 5).toNat := by decide

/-- StoreWritesTheCell and StoreIndirectWritesTheCell: each clause, at the values where they meet. -/
theorem witness_storeIndirect :
    ((withRegs (start 0xB207) [(7, 0xFF)]).reg 7).toNat ≤ 0x00FF ∧ (withRegs (start 0xB207) [(7, 0xFF)]).mem.wf ∧
    0x00FF < ((withRegs (start 0xB207) [(7, 0x100)]).reg 7).toNat := by decide

/-- ReturnGoesBehindTheCall: V-JL1, then the return from the state it leaves. -/
theorem witness_call : (0xF : RegIdx) ≠ 0 ∧
    ∃ t, exec (.jumpAndLink 0xF 0x30) ((start 0xFF30 0x12).setPc 0x13) = .next t ∧ t.reg 0xF = 0x13 :=
  ⟨by decide, _, rfl, by decide⟩

/-- IdiomsDoWhatTheyName: the last address for the return, and words to read. -/
theorem witness_idioms : (withRegs (start 0x1000) [(5, 0xFF)]).reg 0 = 0x0000 ∧
    ((withRegs (start 0x1000) [(5, 0xFF)]).reg 5).toNat = (0xFF : Addr).toNat ∧ (start 0x85FF).reg 0 = 0x0000 ∧
    (supplyInput (start 0x85FF) [9]).mem.wf ∧ (supplyInput (start 0x85FF) [9]).input = 9 :: [] := by decide

/-- ReadTransferComesBeforeTheLoad and WriteTransferComesAfterTheStore: V-LDI3, V-LDI4, V-STI1. -/
theorem witness_port :
    (ReadsPort (.loadIndirect 6 5) (withRegs (start 0xA605) [(5, 0xFF)]) ∧ (withRegs (start 0xA605) [(5, 0xFF)]).input = []) ∧
    (ReadsPort (.loadIndirect 6 5) (supplyInput (withRegs (start 0xA605) [(5, 0xFF)]) [0xBAD]) ∧
      (supplyInput (withRegs (start 0xA605) [(5, 0xFF)]) [0xBAD]).mem.wf ∧
      (supplyInput (withRegs (start 0xA605) [(5, 0xFF)]) [0xBAD]).input = 0xBAD :: []) ∧
    (WritesPort (.storeIndirect 2 7) (withRegs (start 0xB207) [(7, 0xFF)]) ∧ (withRegs (start 0xB207) [(7, 0xFF)]).mem.wf) :=
  ⟨⟨.inr ⟨6, 5, rfl, by decide⟩, rfl⟩, ⟨.inr ⟨6, 5, rfl, by decide⟩, by decide, rfl⟩, ⟨.inr ⟨2, 7, rfl, by decide⟩, by decide⟩⟩

/-- The last clauses of the same two: an address beside the port. -/
theorem witness_beside_the_port :
    ¬ ReadsPort (.load 3 0xFE) (start 0x83FE) ∧ (∃ t, exec (.load 3 0xFE) (start 0x83FE) = .next t) ∧
    ¬ WritesPort (.load 3 0xFE) (start 0x83FE) := by
  refine ⟨?_, ⟨_, rfl⟩, ?_⟩
  · rintro (⟨d, h⟩ | ⟨d, r, h, -⟩) <;> cases h
  · rintro (⟨d, h⟩ | ⟨d, r, h, -⟩) <;> cases h

/-- FailedRequestCanBeResumed: both conditions. -/
theorem witness_failed :
    stepRequest (start 0x83FF) = (.failed .inputExhausted, start 0x83FF) ∧
    stepRequest (withRegs (start 0xA605) [(5, 0x100)]) = (.failed (.outOfRange 0x100), withRegs (start 0xA605) [(5, 0x100)]) := by decide

/-- LoadLeavesTheLastPair. -/
theorem witness_wf : (start 0x1123).mem.wf := by decide

/-- RunResultIsUnique, RunEndsByHaltOrFailure: a run that halts, one that fails, one that does not start. -/
theorem witness_run :
    RunReturns (start 0x0000) .halted ((start 0x0000).advancePc.setRunning false) ∧
    RunReturns (start 0x83FF) (.failed .inputExhausted) (start 0x83FF) ∧ RunReturns State.reset .idle State.reset :=
  ⟨⟨1, by decide⟩, ⟨1, by decide⟩, ⟨0, by decide⟩⟩

/-- RunHoldsOffTheHost: a jump to itself, watched for two steps, whose RUN has not returned. -/
theorem witness_unreturned_run : runFor 2 (start 0xC020) = (none, start 0xC020) ∧
    (externalOp (.host (.run 2)) (.ready (start 0xC020))).2.inRun = true := by decide

end Sys2Proof.Tests
end

/-! PROOFS. The fetch and advance of a running step (40_step_cycle.md R73, R74) and the register-use table (10_state.md R14). The
table's column "writes" is a frame of the executor; its column "reads" is a relation between two runs, `AgreeOn`, that each
phase of a step keeps. -/

namespace Sys2Proof.Machine

/-! ## Fetch and advance -/

theorem advancePc_eq_setPc (s : State) : s.advancePc = s.setPc (s.pc + 1) :=
  congrArg s.setPc (advancePc_pc s)

theorem step_of_running {s : State} (h : s.running = true) : step s = exec (fetched s) s.advancePc :=
  if_pos h

/-- Settles O6: the default advance is the increment of an 8-bit `pc`. -/
theorem stepRunsTheFetchedInstruction : Obligations.StepRunsTheFetchedInstruction := by
  intro s hrun
  rw [step_of_running hrun, advancePc_eq_setPc]
  rfl

/-! ## The column "writes" -/

theorem reg_of_regs_eq {s t : State} (h : t.regs = s.regs) (r : RegIdx) : t.reg r = s.reg r := by
  rw [State.reg, State.reg, h]

theorem setReg_reg_of_ne {r d : RegIdx} (h : r ≠ d) (s : State) (v : Word) : (s.setReg d v).reg r = s.reg r := by
  rw [setReg_reg, if_neg h]

/-- The executor's rule leaves every register outside the column "writes" alone. -/
theorem executorOf_reg_of_not_mem_writesRegs {i : Instr} {r : RegIdx} (h : r ∉ writesRegs i) (s : State) :
    (executorOf i s).1.reg r = s.reg r := by
  cases i with
  | halt | store | storeIndirect | jumpRegister => rfl
  | add d | subtract d | and d | xor d | shiftLeft d | shiftRight d | loadAddress d | load d | loadIndirect d | jumpAndLink d =>
    exact setReg_reg_of_ne (List.ne_of_not_mem_cons h) s _
  | branchZero d a | branchPositive d a =>
    simp only [executorOf, applyBranch]
    split <;> rfl

/-- The end of a step normalises the registers if the executor continues, and leaves the others alone (R80). -/
theorem finish_reg (acc : Option Access) (e : Executed) (r : RegIdx) :
    (finish acc e).reg r = if r = 0 ∧ e.2 = true then 0x0000 else e.1.reg r := by
  obtain ⟨s, cont⟩ := e
  cases cont with
  | false => rw [if_neg (by simp)]; rfl
  | true =>
    obtain ⟨-, hregs, -⟩ := finish_frame acc s
    rw [reg_of_regs_eq hregs, normalise_reg]
    simp only [and_true]

/-- A completed instruction leaves the registers it does not write as they are, but for normalisation. -/
theorem exec_reg_of_not_mem_writesRegs {i : Instr} {s t : State} (h : exec i s = .next t) {r : RegIdx} (hr : r ∉ writesRegs i) :
    t.reg r = if r = 0 ∧ i ≠ .halt then 0x0000 else s.reg r := by
  rw [exec_eq_cycle] at h
  obtain ⟨-, s', hpre, rfl⟩ := cycle_next h
  obtain ⟨-, hregs, -⟩ := preTrap_frame hpre
  have hexec : (executorOf i s').1.reg r = s.reg r := by
    rw [executorOf_reg_of_not_mem_writesRegs hr, reg_of_regs_eq hregs]
  rw [finish_reg, hexec]
  simp only [executorOf_continue]

/-! ## The column "reads" -/

/-- Two states that agree on everything but the registers, and on the registers of `rs`. -/
structure AgreeOn (rs : List RegIdx) (s u : State) : Prop where
  pc      : u.pc = s.pc
  mem     : u.mem = s.mem
  running : u.running = s.running
  input   : u.input = s.input
  output  : u.output = s.output
  regs    : ∀ r ∈ rs, u.reg r = s.reg r

namespace AgreeOn

variable {rs : List RegIdx} {s u : State}

theorem memRead (h : AgreeOn rs s u) (a : Addr) : u.memRead a = s.memRead a := by
  rw [State.memRead, State.memRead, h.mem]

theorem forgetRegs (h : AgreeOn rs s u) : AgreeOn [] s u :=
  { h with regs := by simp }

theorem setPc (h : AgreeOn rs s u) (a : Addr) : AgreeOn rs (s.setPc a) (u.setPc a) :=
  { h with pc := rfl }

theorem setRunning (h : AgreeOn rs s u) (b : Bool) : AgreeOn rs (s.setRunning b) (u.setRunning b) :=
  { h with running := rfl }

theorem setInput (h : AgreeOn rs s u) (q : List Word) : AgreeOn rs { s with input := q } { u with input := q } :=
  { h with input := rfl }

theorem memWrite (h : AgreeOn rs s u) (a : Addr) (v : Word) : AgreeOn rs (s.memWrite a v) (u.memWrite a v) :=
  { h with mem := by rw [memWrite_mem, memWrite_mem, h.mem] }

theorem emitOutput (h : AgreeOn rs s u) (v : Word) : AgreeOn rs (s.emitOutput v) (u.emitOutput v) :=
  { h with output := by rw [emitOutput_output, emitOutput_output, h.output] }

/-- A register written in both states is one they agree on, whatever they agreed on before. -/
theorem setReg (h : AgreeOn rs s u) (d : RegIdx) (v : Word) : AgreeOn (d :: rs) (s.setReg d v) (u.setReg d v) :=
  { h with
    regs := by
      intro r hr
      rw [setReg_reg, setReg_reg]
      split
      · rfl
      · rename_i hne
        exact h.regs r ((List.mem_cons.1 hr).resolve_left hne) }

theorem normalise (h : AgreeOn rs s u) : AgreeOn rs s.normalise u.normalise :=
  { h with regs := fun r hr => (h.setReg 0 0x0000).regs r (List.mem_cons_of_mem 0 hr) }

end AgreeOn

section
variable {rs : List RegIdx} {s u : State}

/-! ### The executor's rules -/

theorem applyAlu_agree {x y : RegIdx} (h : AgreeOn [x, y] s u) (f : Word → Word → Word) (d : RegIdx) :
    AgreeOn [d] (applyAlu f d x y s).1 (applyAlu f d x y u).1 := by
  simp only [applyAlu, h.regs x (by simp), h.regs y (by simp)]
  exact h.forgetRegs.setReg d _

theorem applyLoadAddress_agree (h : AgreeOn [] s u) (d : RegIdx) (a : Addr) :
    AgreeOn [d] (applyLoadAddress d a s).1 (applyLoadAddress d a u).1 :=
  h.setReg d _

theorem applyLoad_agree (h : AgreeOn rs s u) (d : RegIdx) {m : AddrMode} (hm : m.effective u = m.effective s) :
    AgreeOn [d] (applyLoad d m s).1 (applyLoad d m u).1 := by
  simp only [applyLoad, AddrMode.cell, hm, h.memRead]
  exact h.forgetRegs.setReg d _

theorem applyStore_agree {d : RegIdx} (h : AgreeOn (d :: rs) s u) {m : AddrMode} (hm : m.effective u = m.effective s) :
    AgreeOn [] (applyStore d m s).1 (applyStore d m u).1 := by
  simp only [applyStore, AddrMode.cell, hm, h.regs d (by simp)]
  exact h.forgetRegs.memWrite _ _

theorem applyBranch_agree {d : RegIdx} (h : AgreeOn [d] s u) (cond : Word → Bool) (a : Addr) :
    AgreeOn [] (applyBranch cond d a s).1 (applyBranch cond d a u).1 := by
  simp only [applyBranch, h.regs d (by simp)]
  split
  · exact h.forgetRegs.setPc a
  · exact h.forgetRegs

theorem applyJumpRegister_agree {d : RegIdx} (h : AgreeOn [d] s u) :
    AgreeOn [] (applyJumpRegister d s).1 (applyJumpRegister d u).1 := by
  simp only [applyJumpRegister, h.regs d (by simp)]
  exact h.forgetRegs.setPc _

theorem applyJumpAndLink_agree (h : AgreeOn [] s u) (d : RegIdx) (a : Addr) :
    AgreeOn [d] (applyJumpAndLink d a s).1 (applyJumpAndLink d a u).1 := by
  simp only [applyJumpAndLink, h.pc]
  exact (h.setReg d _).setPc a

/-- Agreement on what an instruction reads becomes agreement on what it writes. -/
theorem executorOf_agree {i : Instr} (h : AgreeOn (readsRegs i) s u) :
    AgreeOn (writesRegs i) (executorOf i s).1 (executorOf i u).1 := by
  cases i with
  | halt => exact h
  | add d | subtract d | and d | xor d | shiftLeft d | shiftRight d => exact applyAlu_agree h _ d
  | loadAddress d a => exact applyLoadAddress_agree h d a
  | load d a => exact applyLoad_agree h d rfl
  | store d a => exact applyStore_agree h rfl
  | loadIndirect d t => exact applyLoad_agree h d (h.regs t (by simp [readsRegs]))
  | storeIndirect d t => exact applyStore_agree h (h.regs t (by simp [readsRegs]))
  | branchZero d a | branchPositive d a => exact applyBranch_agree h _ a
  | jumpRegister d => exact applyJumpRegister_agree h
  | jumpAndLink d a => exact applyJumpAndLink_agree h d a

/-- Whether the executor continues depends on no state (R79). -/
theorem executorOf_continue_eq (i : Instr) (s u : State) : (executorOf i u).2 = (executorOf i s).2 := by
  rw [Bool.eq_iff_iff, executorOf_continue, executorOf_continue]

/-! ### The phases around the executor -/

/-- The register behind an indirect address is one the table lists, so the access is the same. -/
theorem access_agree {i : Instr} (h : AgreeOn (readsRegs i) s u) : access i u = access i s := by
  cases i with
  | loadIndirect d t | storeIndirect d t =>
    simp only [access, accessMode, AddrMode.effective, Option.map_some, h.regs t (by simp [readsRegs])]
  | _ => rfl

theorem preTrap_portRead (s : State) : preTrap (some ⟨.read, Config.ioWord⟩) s = readTransfer s := by
  simp only [preTrap, if_true]

theorem preTrap_of_not_portRead {acc : Option Access} (h : acc ≠ some ⟨.read, Config.ioWord⟩) (s : State) :
    preTrap acc s = .ok s := by
  match acc, h with
  | none, _ => rfl
  | some ⟨.write, _⟩, _ => rfl
  | some ⟨.read, a⟩, h => exact if_neg fun ha => h (by rw [ha])

theorem preTrap_ok_agree {acc : Option Access} (h : AgreeOn rs s u) {s' : State} (hp : preTrap acc s = .ok s') :
    ∃ u', preTrap acc u = .ok u' ∧ AgreeOn rs s' u' := by
  rcases preTrap_ok hp with ⟨rfl, hacc⟩ | ⟨rfl, v, rest, hin, rfl⟩
  · exact ⟨u, preTrap_of_not_portRead hacc u, h⟩
  · refine ⟨_, ?_, (h.setInput rest).memWrite Config.ioAddr v⟩
    rw [preTrap_portRead, readTransfer_cons (h.input.trans hin)]

theorem preTrap_error_agree {acc : Option Access} (h : AgreeOn rs s u) {e : Fault} (hp : preTrap acc s = .error e) :
    preTrap acc u = .error e := by
  obtain ⟨rfl, rfl, hin⟩ := preTrap_error hp
  rw [preTrap_portRead, readTransfer_empty (h.input.trans hin)]

theorem postTrap_agree (h : AgreeOn rs s u) (acc : Option Access) : AgreeOn rs (postTrap acc s) (postTrap acc u) := by
  match acc with
  | none => exact h
  | some ⟨.read, _⟩ => exact h
  | some ⟨.write, a⟩ =>
    simp only [postTrap, writeTransfer, h.memRead]
    split
    · exact h.emitOutput _
    · exact h

theorem finish_agree {e e' : Executed} (h : AgreeOn rs e.1 e'.1) (hcont : e'.2 = e.2) (acc : Option Access) :
    AgreeOn rs (finish acc e) (finish acc e') := by
  obtain ⟨s, b⟩ := e
  obtain ⟨u, c⟩ := e'
  obtain rfl : c = b := hcont
  cases c with
  | false => exact h.setRunning false
  | true => exact postTrap_agree h.normalise acc

/-! ### The whole instruction -/

theorem cycle_of_addressCheck {i : Instr} {s : State} {e : Fault} (hc : addressCheck (access i s) = some e)
    (f : State → Executed) : cycle i f s = .fault e := by
  simp only [cycle, hc, raise]

theorem cycle_of_preTrap_error {i : Instr} {s : State} {e : Fault} (hc : addressCheck (access i s) = none)
    (hp : preTrap (access i s) s = .error e) (f : State → Executed) : cycle i f s = .fault e := by
  simp only [cycle, hc, hp, raise]

theorem cycle_of_preTrap_ok {i : Instr} {s s' : State} (hc : addressCheck (access i s) = none)
    (hp : preTrap (access i s) s = .ok s') (f : State → Executed) : cycle i f s = .next (finish (access i s) (f s')) := by
  simp only [cycle, hc, hp]

theorem exec_next_agree {i : Instr} (h : AgreeOn (readsRegs i) s u) {t : State} (hx : exec i s = .next t) :
    ∃ v, exec i u = .next v ∧ AgreeOn (writesRegs i) t v := by
  rw [exec_eq_cycle] at hx ⊢
  obtain ⟨hc, s', hp, rfl⟩ := cycle_next hx
  obtain ⟨u', hpu, hpre⟩ := preTrap_ok_agree h hp
  rw [← access_agree h] at hc hpu
  refine ⟨_, cycle_of_preTrap_ok hc hpu _, ?_⟩
  rw [access_agree h]
  exact finish_agree (executorOf_agree hpre) (executorOf_continue_eq i s' u') _

theorem exec_fault_agree {i : Instr} (h : AgreeOn (readsRegs i) s u) {e : Fault} (hx : exec i s = .fault e) :
    exec i u = .fault e := by
  rw [exec_eq_cycle] at hx ⊢
  rcases cycle_fault hx with hc | ⟨hc, hp⟩
  · exact cycle_of_addressCheck (by rw [access_agree h, hc]) _
  · exact cycle_of_preTrap_error (by rw [access_agree h, hc]) (by rw [access_agree h, preTrap_error_agree h hp]) _

end

/-- Settles O18: the frame of the column "writes", and the agreement of two runs for the column "reads". -/
theorem registerUseIsTheTable : Obligations.RegisterUseIsTheTable := by
  refine ⟨fun i s t h r hr => exec_reg_of_not_mem_writesRegs h hr, fun i s other hother => ?_⟩
  have h : AgreeOn (readsRegs i) s { s with regs := other } := ⟨rfl, rfl, rfl, rfl, rfl, hother⟩
  split
  next t hx =>
    obtain ⟨u, hu, hpc, hmem, hrun, hin, hout, hregs⟩ := exec_next_agree h hx
    exact ⟨u, hu, hpc, hmem, hrun, hin, hout, hregs⟩
  next e hx => exact exec_fault_agree h hx
  next r hx => exact exec_not_refused i s r hx

end Sys2Proof.Machine

/-! PROOFS. The five fields of any word as digits of its number (30_encoding.md R51). -/

namespace Sys2Proof

/-- With `ofNumber_number`: the opcode map is a bijection, so no top digit is without a tag (R54, R57). -/
theorem number_ofNumber (n : Fin 16) : (OpCode.ofNumber n).number = n := by
  decide +revert

theorem fieldsOf_op_number_val (w : Word) : (fieldsOf w).op.number.val = w.toNat / 2 ^ 12 % 16 := by
  rw [fieldsOf, number_ofNumber, digitAt_val]

theorem fieldsOf_d_val (w : Word) : (fieldsOf w).d.val = w.toNat / 2 ^ 8 % 16 := digitAt_val w 8

theorem fieldsOf_s_val (w : Word) : (fieldsOf w).s.val = w.toNat / 2 ^ 4 % 16 := digitAt_val w 4

theorem fieldsOf_t_val (w : Word) : (fieldsOf w).t.val = w.toNat / 2 ^ 0 % 16 := digitAt_val w 0

theorem fieldsOf_address_toNat (w : Word) : (fieldsOf w).address.toNat = w.toNat % 2 ^ 8 := by
  rw [fieldsOf, BitVec.extractLsb'_toNat, Nat.shiftRight_zero]

/-- Settles O5: a 16-bit number is the sum of its four base-16 digits, and its last two digits are its low byte. -/
theorem fieldsStandAtFixedPositions : Obligations.FieldsStandAtFixedPositions := by
  intro w
  have hw := w.isLt
  rw [fieldsOf_op_number_val, fieldsOf_d_val, fieldsOf_s_val, fieldsOf_t_val, fieldsOf_address_toNat]
  constructor <;> omega

end Sys2Proof

/-! PROOFS. The end of a completed step: normalisation and the controller's transition (40_step_cycle.md R80, R82). Both are
decided by `finish`, from what the executor hands back as `continue`. -/

namespace Sys2Proof.Machine

/-- What an instruction that completes leaves is a finished run of its executor's rule, after the pre-execute check. -/
theorem exec_next {i : Instr} {s t : State} (h : exec i s = .next t) :
    ∃ s', preTrap (access i s) s = .ok s' ∧ t = finish (access i s) (executorOf i s') := by
  rw [exec_eq_cycle] at h
  exact (cycle_next h).2

/-! ## The controller's transition -/

/-- The end of a step leaves `running` as it is if the executor continues, and clears it otherwise (R82). -/
theorem finish_running (acc : Option Access) (e : Executed) : (finish acc e).running = (e.1.running && e.2) := by
  obtain ⟨s, cont⟩ := e
  cases cont with
  | false => exact (Bool.and_false _).symm
  | true =>
    obtain ⟨-, -, -, hrunning, -⟩ := finish_frame acc s
    rw [hrunning, Bool.and_true]

/-- A completed instruction leaves the machine Running exactly if it was Running and the instruction is not Halt. -/
theorem exec_running {i : Instr} {s t : State} (h : exec i s = .next t) : t.running = true ↔ s.running = true ∧ i ≠ .halt := by
  obtain ⟨s', hpre, rfl⟩ := exec_next h
  obtain ⟨-, -, hpreRunning, -⟩ := preTrap_frame hpre
  obtain ⟨-, -, hexecRunning⟩ := executorOf_frame i s'
  rw [finish_running, Bool.and_eq_true, executorOf_continue, hexecRunning, hpreRunning]

/-- A running step that completes leaves the machine Running unless it fetched Halt. -/
theorem step_running {s t : State} (hrun : s.running = true) (h : step s = .next t) : t.running = true ↔ fetched s ≠ .halt := by
  rw [step_of_running hrun] at h
  rw [exec_running h, advancePc_running]
  exact and_iff_right hrun

/-- The result of a running step that completes is read off the flag it leaves (R85). -/
theorem stepRequest_of_next {s t : State} (hrun : s.running = true) (h : step s = .next t) :
    stepRequest s = (if t.running then .continued else .halted, t) := by
  simp only [stepRequest, hrun, h, if_true]

/-- Settles O11: the flag a completed step leaves says whether it fetched Halt, and the result is read off that flag. -/
theorem onlyHaltEndsRunning : Obligations.OnlyHaltEndsRunning := by
  intro s t hrun h
  have hflag := step_running hrun h
  rw [stepRequest_of_next hrun h]
  constructor
  · intro hne
    have ht : t.running = true := hflag.2 hne
    simp [ht]
  · intro hhalt
    have ht : t.running = false := Bool.eq_false_iff.2 fun hr => hflag.1 hr hhalt
    simp [ht]

/-! ## Normalisation -/

/-- Whatever a completed instruction other than Halt wrote, register 0 reads zero after it. -/
theorem exec_reg_zero {i : Instr} {s t : State} (h : exec i s = .next t) (hi : i ≠ .halt) : t.reg 0 = 0x0000 := by
  obtain ⟨s', -, rfl⟩ := exec_next h
  rw [finish_reg, if_pos ⟨rfl, (executorOf_continue i s').2 hi⟩]

/-- Halt is not normalised and writes no register (R90). -/
theorem exec_halt_reg {s t : State} (h : exec .halt s = .next t) (r : RegIdx) : t.reg r = s.reg r := by
  rw [exec_reg_of_not_mem_writesRegs h (List.not_mem_nil), if_neg fun hr => hr.2 rfl]

/-- Settles O12: register 0 is cleared at the end of every instruction that continues, and Halt has an empty column "writes". -/
theorem nonHaltingStepClearsRegisterZero : Obligations.NonHaltingStepClearsRegisterZero := by
  intro s t hrun h
  rw [step_of_running hrun] at h
  refine ⟨exec_reg_zero h, fun hhalt r => ?_⟩
  rw [hhalt] at h
  rw [exec_halt_reg h, advancePc_reg]

end Sys2Proof.Machine

/-! PROOFS. The ALU instructions (42_alu.md R100): a word in the register layout decodes by its tag alone, and an instruction
that accesses no memory and whose rule writes one register has that write as its whole effect. -/

namespace Sys2Proof

/-- The operands of a word in the register layout reach the instruction its tag selects (30_encoding.md R51, R54). -/
theorem decode_digits (c : OpCode) (d s t : RegIdx) :
    decode (digits c.number d s t) = instrOf ⟨c, d, s, t, BitVec.ofNat 8 (s.val * 16 + t.val)⟩ := by
  rw [decode, fieldsOf_digits, ofNumber_number]

end Sys2Proof

namespace Sys2Proof.Machine

/-- Register 0 is cleared even if it is the register written, which is why `WritesReg` says nothing of `v` for it (R12). -/
theorem normalise_setReg_writesReg (d : RegIdx) (v : Word) (s : State) : WritesReg d v s (s.setReg d v).normalise where
  regs := by
    intro r
    rw [normalise_reg, setReg_reg]
  pc := rfl
  cells := fun _ => rfl
  running := rfl
  stream := ⟨rfl, rfl⟩

theorem exec_writesReg {i : Instr} (hacc : accessMode i = none) {d : RegIdx} {v : Word} {s : State}
    (hrule : executorOf i s = (s.setReg d v, true)) : ∃ t, exec i s = .next t ∧ WritesReg d v s t := by
  rw [exec_eq_cycle, cycle_noAccess hacc, hrule]
  exact ⟨_, rfl, normalise_setReg_writesReg d v s⟩

/-- An instruction whose executor's rule is the shape that the six share (R100). -/
def HasAluShape (f : Word → Word → Word) (make : RegIdx → RegIdx → RegIdx → Instr) : Prop :=
  ∀ d x y, accessMode (make d x y) = none ∧ executorOf (make d x y) = applyAlu f d x y

theorem HasAluShape.exec {f : Word → Word → Word} {make : RegIdx → RegIdx → RegIdx → Instr} (h : HasAluShape f make)
    (d x y : RegIdx) (s : State) :
    ∃ t, Machine.exec (make d x y) s = .next t ∧ WritesReg d (f (s.reg x) (s.reg y)) s t := by
  obtain ⟨hacc, hrule⟩ := h d x y
  exact exec_writesReg hacc (congrFun hrule s)

theorem add_hasAluShape : HasAluShape aluAdd .add := fun _ _ _ => ⟨rfl, rfl⟩
theorem subtract_hasAluShape : HasAluShape aluSubtract .subtract := fun _ _ _ => ⟨rfl, rfl⟩
theorem and_hasAluShape : HasAluShape aluAnd .and := fun _ _ _ => ⟨rfl, rfl⟩
theorem xor_hasAluShape : HasAluShape aluXor .xor := fun _ _ _ => ⟨rfl, rfl⟩
theorem shiftLeft_hasAluShape : HasAluShape aluShiftLeft .shiftLeft := fun _ _ _ => ⟨rfl, rfl⟩
theorem shiftRight_hasAluShape : HasAluShape aluShiftRight .shiftRight := fun _ _ _ => ⟨rfl, rfl⟩

/-- Settles O26: each of the six has the shared shape for its own function of two words, and its tag selects it. -/
theorem aluInstructionsShareOneShape : Obligations.AluInstructionsShareOneShape := by
  intro make hmake
  simp only [List.mem_cons, List.not_mem_nil, or_false] at hmake
  rcases hmake with rfl | rfl | rfl | rfl | rfl | rfl
  · exact ⟨aluAdd, fun d x y => ⟨decode_digits .add d x y, add_hasAluShape.exec d x y⟩⟩
  · exact ⟨aluSubtract, fun d x y => ⟨decode_digits .subtract d x y, subtract_hasAluShape.exec d x y⟩⟩
  · exact ⟨aluAnd, fun d x y => ⟨decode_digits .and d x y, and_hasAluShape.exec d x y⟩⟩
  · exact ⟨aluXor, fun d x y => ⟨decode_digits .xor d x y, xor_hasAluShape.exec d x y⟩⟩
  · exact ⟨aluShiftLeft, fun d x y => ⟨decode_digits .shiftLeft d x y, shiftLeft_hasAluShape.exec d x y⟩⟩
  · exact ⟨aluShiftRight, fun d x y => ⟨decode_digits .shiftRight d x y, shiftRight_hasAluShape.exec d x y⟩⟩

end Sys2Proof.Machine

/-! PROOFS. The instructions of the Load and Store families (43_load_store.md R110 to R112). What each family does is proved
once for both addressing modes, from the two facts that place an instruction in it: its row of the addressing table (R115) and
its executor's rule. -/

namespace Sys2Proof

/-- A digit of an address is that digit of its number. -/
theorem addressDigit_val (a : Addr) (k : Nat) : (BitVec.extractLsb' k 4 a).toFin.val = a.toNat / 2 ^ k % 16 := by
  rw [BitVec.val_toFin, BitVec.extractLsb'_toNat, Nat.shiftRight_eq_div_pow]

/-- The address layout carries the address's own digits in the places of `s` and `t` (30_encoding.md R51). -/
theorem fieldsOf_digitsAddress_eq_ofAddress (op d : Fin 16) (a : Addr) :
    fieldsOf (digitsAddress op d a) = Instr.fields.ofAddress (OpCode.ofNumber op) d a := by
  have := op.isLt; have := d.isLt; have := a.isLt
  obtain ⟨hop, hd, ha⟩ := fieldsOf_digitsAddress op d a
  have hs : (fieldsOf (digitsAddress op d a)).s = (BitVec.extractLsb' 4 4 a).toFin := by
    apply Fin.ext; rw [fieldsOf_s_val, digitsAddress_toNat, addressDigit_val]; omega
  have ht : (fieldsOf (digitsAddress op d a)).t = (BitVec.extractLsb' 0 4 a).toFin := by
    apply Fin.ext; rw [fieldsOf_t_val, digitsAddress_toNat, addressDigit_val]; omega
  rw [Instr.fields.ofAddress, Fields.mk.injEq]
  exact ⟨hop, hd, hs, ht, ha⟩

/-- The operands of a word in the address layout reach the instruction its tag selects (30_encoding.md R51, R54). -/
theorem decode_digitsAddress (c : OpCode) (d : RegIdx) (a : Addr) :
    decode (digitsAddress c.number d a) = instrOf (Instr.fields.ofAddress c d a) := by
  rw [decode, fieldsOf_digitsAddress_eq_ofAddress, ofNumber_number]

end Sys2Proof

namespace Sys2Proof.Machine

/-- Settles O34: LoadAddress accesses no memory and its rule writes one register, `zext_16` keeping the number. -/
theorem loadAddressWritesTheImmediate : Obligations.LoadAddressWritesTheImmediate := by
  intro d a
  refine ⟨decode_digitsAddress .loadAddress d a, fun s => ?_⟩
  obtain ⟨t, hexec, hwrites⟩ := exec_writesReg (i := .loadAddress d a) (s := s) rfl rfl
  exact ⟨t, zext16 a, hexec, hwrites, zext16_toNat a⟩

/-! ## The access -/

theorem access_of_accessMode {i : Instr} {k : AccessKind} {m : AddrMode} (h : accessMode i = some (k, m)) (s : State) :
    access i s = some ⟨k, m.effective s⟩ := by
  rw [access, h, Option.map_some]

/-- An address that names a cell passes the address check (R164). -/
theorem addressCheck_of_not_maxCell_lt {v : Word} (h : ¬ Config.maxCell < v) (k : AccessKind) :
    addressCheck (some ⟨k, v⟩) = none :=
  if_neg h

theorem not_maxCell_lt_zext16 (a : Addr) : ¬ Config.maxCell < zext16 a := by
  rw [maxCell_lt_iff, zext16_toNat]
  exact Nat.not_lt.2 (Nat.le_of_lt_succ a.isLt)

/-- An effective address depends on the registers only, so the read transfer does not move it (R153). -/
theorem effective_of_regs_eq {s t : State} (h : t.regs = s.regs) (m : AddrMode) : m.effective t = m.effective s := by
  cases m with
  | absolute a => rfl
  | indirect r => exact reg_of_regs_eq h r

theorem cell_of_effective_eq_ioWord {m : AddrMode} {s : State} (h : m.effective s = Config.ioWord) :
    m.cell s = Config.ioAddr := by
  rw [AddrMode.cell, h]
  rfl

theorem cell_absolute (a : Addr) (s : State) : (AddrMode.absolute a).cell s = a :=
  cellOf_zext16 a

/-! ## One cell of memory -/

theorem memRead_of_mem_eq {s t : State} (h : t.mem = s.mem) (a : Addr) : t.memRead a = s.memRead a := by
  rw [State.memRead, State.memRead, h]

theorem oneCell_of_memRead {a : Addr} {v : Word} {s t : State}
    (h : ∀ b, t.memRead b = if b = a then v else s.memRead b) : OneCell a v s t :=
  ⟨(h a).trans (if_pos rfl), fun b hb => (h b).trans (if_neg hb)⟩

/-! ## Loads -/

/-- The state that the read transfer hands to the executor: `v` pulled into `M[0xFF]`, `rest` left in `IN` (R151). -/
def State.pullInput (s : State) (v : Word) (rest : List Word) : State :=
  ({ s with input := rest } : State).memWrite Config.ioAddr v

theorem readTransfer_eq_pullInput {s : State} {v : Word} {rest : List Word} (h : s.input = v :: rest) :
    readTransfer s = .ok (s.pullInput v rest) :=
  readTransfer_cons h

theorem pullInput_memRead {s : State} (hwf : s.mem.wf) (v : Word) (rest : List Word) (a : Addr) :
    (s.pullInput v rest).memRead a = if a = Config.ioAddr then v else s.memRead a :=
  memWrite_memRead (s := { s with input := rest }) hwf Config.ioAddr a v

/-- The word pulled and written to `x[d]` is the whole effect of a load from the port. -/
theorem normalise_setReg_pullInput_loadsInput {s : State} (hwf : s.mem.wf) (d : RegIdx) (v : Word) (rest : List Word) :
    LoadsInput d v rest s ((s.pullInput v rest).setReg d v).normalise where
  regs := (normalise_setReg_writesReg d v (s.pullInput v rest)).regs
  pc := rfl
  cells := oneCell_of_memRead (pullInput_memRead hwf v rest)
  running := rfl
  input := rfl
  output := rfl

/-- An instruction that loads `x[d]` through the addressing mode `m` (R111, R113). -/
structure IsLoad (i : Instr) (d : RegIdx) (m : AddrMode) : Prop where
  mode : accessMode i = some (.read, m)
  rule : executorOf i = applyLoad d m

theorem load_isLoad (d : RegIdx) (a : Addr) : IsLoad (.load d a) d (.absolute a) := ⟨rfl, rfl⟩

namespace IsLoad

variable {i : Instr} {d : RegIdx} {m : AddrMode} {s : State}

/-- A load whose address names a cell is decided by the pre-execute check, and reads the memory which that leaves. -/
theorem exec_of_preTrap (h : IsLoad i d m) (hcell : ¬ Config.maxCell < m.effective s) {s' : State}
    (hpre : preTrap (some ⟨.read, m.effective s⟩) s = .ok s') :
    exec i s = .next (s'.setReg d (s'.memRead (m.cell s'))).normalise := by
  have hacc := access_of_accessMode h.mode s
  have hcheck : addressCheck (access i s) = none := by rw [hacc, addressCheck_of_not_maxCell_lt hcell]
  rw [← hacc] at hpre
  rw [exec_eq_cycle, cycle_of_preTrap_ok hcheck hpre, hacc, h.rule]
  rfl

/-- Away from the port a load has the register write as its whole effect. -/
theorem writesReg (h : IsLoad i d m) (hcell : ¬ Config.maxCell < m.effective s) (hport : m.effective s ≠ Config.ioWord) :
    ∃ t, exec i s = .next t ∧ WritesReg d (s.memRead (m.cell s)) s t := by
  have hpre : preTrap (some ⟨.read, m.effective s⟩) s = .ok s := preTrap_of_not_portRead (by simpa using hport) s
  exact ⟨_, h.exec_of_preTrap hcell hpre, normalise_setReg_writesReg d _ s⟩

/-- A load from the port fails on an empty queue (R151, R162). -/
theorem inputExhausted (h : IsLoad i d m) (hport : m.effective s = Config.ioWord) (hin : s.input = []) :
    exec i s = .fault .inputExhausted := by
  have hacc : access i s = some ⟨.read, Config.ioWord⟩ := by rw [access_of_accessMode h.mode, hport]
  have hpre : preTrap (access i s) s = .error .inputExhausted := by rw [hacc, preTrap_portRead, readTransfer_empty hin]
  have hcheck : addressCheck (access i s) = none := by rw [hacc]; rfl
  rw [exec_eq_cycle, cycle_of_preTrap_error hcheck hpre]

/-- A load from the port reads the word that the read transfer has just put there (R151). -/
theorem loadsInput (h : IsLoad i d m) (hport : m.effective s = Config.ioWord) (hwf : s.mem.wf) {v : Word} {rest : List Word}
    (hin : s.input = v :: rest) : ∃ t, exec i s = .next t ∧ LoadsInput d v rest s t := by
  have hcell : ¬ Config.maxCell < m.effective s := by rw [hport]; decide
  have hpre : preTrap (some ⟨.read, m.effective s⟩) s = .ok (s.pullInput v rest) := by
    rw [hport, preTrap_portRead, readTransfer_eq_pullInput hin]
  have hread : (s.pullInput v rest).memRead (m.cell (s.pullInput v rest)) = v := by
    have hport' : m.effective (s.pullInput v rest) = Config.ioWord := (effective_of_regs_eq rfl m).trans hport
    rw [cell_of_effective_eq_ioWord hport', pullInput_memRead hwf, if_pos rfl]
  rw [h.exec_of_preTrap hcell hpre, hread]
  exact ⟨_, rfl, normalise_setReg_pullInput_loadsInput hwf d v rest⟩

end IsLoad

/-- Settles O35: an 8-bit address always names a cell, and it is the port's exactly when it is 0xFF. -/
theorem loadWritesTheCellsWord : Obligations.LoadWritesTheCellsWord := by
  intro d a
  have hload := load_isLoad d a
  refine ⟨decode_digitsAddress .load d a, fun s => ⟨fun ha => ?_, fun ha hin => ?_, fun ha hwf v rest hin => ?_⟩⟩
  · have h := hload.writesReg (s := s) (not_maxCell_lt_zext16 a) (mt (zext16_eq_ioWord a).1 ha)
    rwa [cell_absolute] at h
  · exact hload.inputExhausted ((zext16_eq_ioWord a).2 ha) hin
  · exact hload.loadsInput ((zext16_eq_ioWord a).2 ha) hwf hin

/-! ## Stores -/

/-- An instruction that stores `x[d]` through the addressing mode `m` (R112, R114). -/
structure IsStore (i : Instr) (d : RegIdx) (m : AddrMode) : Prop where
  mode : accessMode i = some (.write, m)
  rule : executorOf i = applyStore d m

theorem store_isStore (d : RegIdx) (a : Addr) : IsStore (.store d a) d (.absolute a) := ⟨rfl, rfl⟩

/-- The post-execute check of a write emits the word of the cell written if that is the port, and nothing otherwise (R152). -/
theorem finish_write_output {ea : Word} (hcell : ¬ Config.maxCell < ea) (s : State) :
    (finish (some ⟨.write, ea⟩) (s, true)).output =
      if cellOf ea = 0xFF then s.output ++ [s.memRead (cellOf ea)] else s.output := by
  by_cases hport : ea = Config.ioWord
  · subst hport
    rfl
  · have hcellPort : cellOf ea ≠ 0xFF := mt (cellOf_eq_ioAddr hcell).1 hport
    simp only [finish, postTrap, if_neg hport, if_neg hcellPort, normalise_output]

/-- The end of a step that has stored a word: the word emitted at the port is the one stored there. -/
theorem finish_memWrite_storesWord {s : State} (hwf : s.mem.wf) {ea : Word} (hcell : ¬ Config.maxCell < ea) (v : Word) :
    StoresWord (cellOf ea) v s (finish (some ⟨.write, ea⟩) (s.memWrite (cellOf ea) v, true)) := by
  have hread (b : Addr) : (s.memWrite (cellOf ea) v).memRead b = if b = cellOf ea then v else s.memRead b :=
    memWrite_memRead hwf (cellOf ea) b v
  obtain ⟨hpc, hregs, hmem, hrunning, hinput⟩ := finish_frame (some ⟨.write, ea⟩) (s.memWrite (cellOf ea) v)
  refine ⟨fun r => ?_, hpc, oneCell_of_memRead fun b => ?_, hrunning, hinput, ?_⟩
  · rw [reg_of_regs_eq hregs, normalise_reg, memWrite_reg]
  · rw [memRead_of_mem_eq hmem, hread]
  · rw [finish_write_output hcell, memWrite_output, hread, if_pos rfl]

theorem IsStore.storesWord {i : Instr} {d : RegIdx} {m : AddrMode} (h : IsStore i d m) {s : State} (hwf : s.mem.wf)
    (hcell : ¬ Config.maxCell < m.effective s) : ∃ t, exec i s = .next t ∧ StoresWord (m.cell s) (s.reg d) s t := by
  have hacc := access_of_accessMode h.mode s
  have hcheck : addressCheck (access i s) = none := by rw [hacc, addressCheck_of_not_maxCell_lt hcell]
  have hpre : preTrap (access i s) s = .ok s := by rw [hacc]; rfl
  rw [exec_eq_cycle, cycle_of_preTrap_ok hcheck hpre, hacc, h.rule]
  exact ⟨_, rfl, finish_memWrite_storesWord hwf hcell (s.reg d)⟩

/-- Settles O36: an 8-bit address always names a cell, so Store has the whole effect of its family. -/
theorem storeWritesTheCell : Obligations.StoreWritesTheCell := by
  intro d a
  refine ⟨decode_digitsAddress .store d a, fun s hwf => ?_⟩
  have h := (store_isStore d a).storesWord hwf (not_maxCell_lt_zext16 a)
  rwa [cell_absolute] at h

end Sys2Proof.Machine

/-! PROOFS. BranchZero and JumpRegister (44_control.md R120, R122). An instruction that accesses no memory and whose rule assigns
`pc` has that assignment as its whole effect (R124); a branch assigns `pc` in any case, to itself when it is not taken. -/

namespace Sys2Proof.Machine

theorem normalise_setPc_setsPc (target : Addr) (s : State) : SetsPc target s (s.setPc target).normalise where
  regs := by
    intro r
    rw [normalise_reg, setPc_reg]
  pc := rfl
  cells := fun _ => rfl
  running := rfl
  stream := ⟨rfl, rfl⟩

theorem exec_setsPc {i : Instr} (hacc : accessMode i = none) {target : Addr} {s : State}
    (hrule : executorOf i s = (s.setPc target, true)) : ∃ t, exec i s = .next t ∧ SetsPc target s t := by
  rw [exec_eq_cycle, cycle_noAccess hacc, hrule]
  exact ⟨_, rfl, normalise_setPc_setsPc target s⟩

/-! ## Branches -/

theorem setPc_self (s : State) : s.setPc s.pc = s := rfl

/-- An untaken branch keeps the default advance, which is the `pc` it is given (R120, R121). -/
theorem applyBranch_eq_setPc (cond : Word → Bool) (d : RegIdx) (a : Addr) (s : State) :
    applyBranch cond d a s = (s.setPc (if cond (s.reg d) then a else s.pc), true) := by
  rw [applyBranch, apply_ite s.setPc, setPc_self]

/-- All 16 bits are tested (R120). -/
theorem isZero_iff_toNat_eq_zero (v : Word) : isZero v = true ↔ v.toNat = 0 := by
  rw [isZero, beq_iff_eq, ← BitVec.toNat_inj]
  rfl

/-- Settles O39: BranchZero accesses no memory and assigns `pc` by a condition that is the register's being the number 0. -/
theorem branchZeroTakenOnZero : Obligations.BranchZeroTakenOnZero := by
  intro d a
  refine ⟨decode_digitsAddress .branchZero d a, fun s => ?_⟩
  simp only [← isZero_iff_toNat_eq_zero]
  exact exec_setsPc rfl (applyBranch_eq_setPc isZero d a s)

/-! ## The register jump -/

/-- Settles O41: JumpRegister accesses no memory and assigns the low byte of the register to `pc`; the word's own low byte is an
address that the instruction does not keep. -/
theorem jumpRegisterTakesTheLowByte : Obligations.JumpRegisterTakesTheLowByte := by
  intro d ignored
  refine ⟨decode_digitsAddress .jumpRegister d ignored, fun s => ?_⟩
  obtain ⟨t, hexec, hsets⟩ := exec_setsPc (i := .jumpRegister d) (s := s) rfl rfl
  exact ⟨t, lowByte (s.reg d), hexec, hsets, BitVec.toNat_setWidth 8 (s.reg d)⟩

end Sys2Proof.Machine

/-! PROOFS. The host's way back into a run (50_interfaces.md R135, R136, R139): an operation that answers nothing leaves the
session ready for the next one, and the state that re-arming leaves is one of a running machine. -/

namespace Sys2Proof.Machine

/-- A host operation without a result, issued from a ready session, leaves it ready (R131). -/
theorem externalOp_host_ready {op : HostOp} {s t : State} (h : hostOp op s = (.none, t)) :
    externalOp (.host op) (.ready s) = (.none, .ready t) := by
  rw [externalOp_host (Session.ready_inRun s), Session.ready_state, h]
  rfl

theorem session_cons (op : ExternalOp) (ops : List ExternalOp) (z : Session) :
    session (op :: ops) z = session ops (externalOp op z).2 := rfl

/-- Two such operations one after the other. -/
theorem session_two_host_ready {op op' : HostOp} {s t u : State} (h : hostOp op s = (.none, t))
    (h' : hostOp op' t = (.none, u)) : session [.host op, .host op'] (.ready s) = .ready u := by
  rw [session_cons, externalOp_host_ready h, session_cons, externalOp_host_ready h']
  rfl

/-- Settles O48: each operation is one assignment or one answer, the two assignments commute, and the machine they leave is
Running at the chosen address. -/
theorem rearmingRunsFromTheChosenAddress : Obligations.RearmingRunsFromTheChosenAddress := by
  intro s a b
  refine ⟨rfl, rfl, rfl, rfl, ?_, ?_, ?_⟩
  · exact session_two_host_ready rfl rfl
  · exact session_two_host_ready rfl rfl
  · exact stepRunsTheFetchedInstruction { s with pc := a, running := true } rfl

end Sys2Proof.Machine

/-! PROOFS. The word stream over a whole instruction (50_interfaces.md R143). `IN` moves in the pre-execute check only and `OUT`
in the post-execute check only; the executor in between knows nothing of either. -/

namespace Sys2Proof.Machine

/-! ## The queue -/

/-- The end of a step leaves the queue alone. -/
theorem finish_input (acc : Option Access) (e : Executed) : (finish acc e).input = e.1.input := by
  obtain ⟨s, cont⟩ := e
  cases cont with
  | false => rfl
  | true =>
    obtain ⟨-, -, -, -, hinput⟩ := finish_frame acc s
    exact hinput

/-- What is left of the queue after an instruction is what its pre-execute check leaves. -/
theorem exec_next_input {i : Instr} {s t : State} (h : exec i s = .next t) :
    ∃ s', preTrap (access i s) s = .ok s' ∧ t.input = s'.input := by
  obtain ⟨s', hpre, rfl⟩ := exec_next h
  obtain ⟨hinput, -, -⟩ := executorOf_frame i s'
  exact ⟨s', hpre, by rw [finish_input, hinput]⟩

theorem exec_input_of_readsPort {i : Instr} {s t : State} (h : exec i s = .next t) (hread : ReadsPort i s) :
    ∃ v, s.input = v :: t.input := by
  obtain ⟨s', hpre, ht⟩ := exec_next_input h
  rcases preTrap_ok hpre with ⟨-, hacc⟩ | ⟨-, v, rest, hs, rfl⟩
  · exact absurd (access_eq_portRead.2 hread) hacc
  · exact ⟨v, by rw [ht, hs]; rfl⟩

theorem exec_input_of_not_readsPort {i : Instr} {s t : State} (h : exec i s = .next t) (hread : ¬ ReadsPort i s) :
    t.input = s.input := by
  obtain ⟨s', hpre, ht⟩ := exec_next_input h
  rcases preTrap_ok hpre with ⟨rfl, -⟩ | ⟨hacc, -⟩
  · exact ht
  · exact absurd (access_eq_portRead.1 hacc) hread

/-! ## The log -/

/-- The end of a step leaves the log alone unless the instruction has written to the port (R152). -/
theorem finish_output_of_not_portWrite {acc : Option Access} (h : acc ≠ some ⟨.write, Config.ioWord⟩) (e : Executed) :
    (finish acc e).output = e.1.output := by
  obtain ⟨s, cont⟩ := e
  cases cont with
  | false => rfl
  | true =>
    rcases finish_continue acc s with ⟨hfin, -⟩ | ⟨-, hacc⟩
    · rw [hfin, normalise_output]
    · exact absurd hacc h

/-- The end of a step that has written to the port emits that cell's word (R152). -/
theorem finish_output_of_portWrite (s : State) :
    (finish (some ⟨.write, Config.ioWord⟩) (s, true)).output = s.output ++ [s.memRead Config.ioAddr] := rfl

/-- The log before the end of a step is the one before the instruction. -/
theorem executorOf_preTrap_output {i : Instr} {acc : Option Access} {s s' : State} (h : preTrap acc s = .ok s') :
    (executorOf i s').1.output = s.output := by
  obtain ⟨-, -, -, hpre⟩ := preTrap_frame h
  obtain ⟨-, hexec, -⟩ := executorOf_frame i s'
  rw [hexec, hpre]

theorem not_writesPort_halt (s : State) : ¬ WritesPort .halt s := by
  rintro (⟨d, h⟩ | ⟨d, t, h, -⟩) <;> cases h

theorem exec_output_of_writesPort {i : Instr} {s t : State} (h : exec i s = .next t) (hwrite : WritesPort i s) :
    ∃ v, t.output = s.output ++ [v] := by
  obtain ⟨s', hpre, rfl⟩ := exec_next h
  have hcont : (executorOf i s').2 = true :=
    (executorOf_continue i s').2 fun hi => not_writesPort_halt s (hi ▸ hwrite)
  have hexec : executorOf i s' = ((executorOf i s').1, true) := Prod.ext rfl hcont
  rw [access_eq_portWrite.2 hwrite, hexec, finish_output_of_portWrite, executorOf_preTrap_output hpre]
  exact ⟨_, rfl⟩

theorem exec_output_of_not_writesPort {i : Instr} {s t : State} (h : exec i s = .next t) (hwrite : ¬ WritesPort i s) :
    t.output = s.output := by
  obtain ⟨s', hpre, rfl⟩ := exec_next h
  rw [finish_output_of_not_portWrite (mt access_eq_portWrite.1 hwrite), executorOf_preTrap_output hpre]

/-! ## Both together -/

/-- No instruction triggers both transfers: it has one access, of one kind (R115). -/
theorem not_writesPort_of_readsPort {i : Instr} {s : State} (h : ReadsPort i s) : ¬ WritesPort i s := by
  rw [← access_eq_portWrite, access_eq_portRead.2 h]
  simp

/-- LOAD writes cells only (R134). -/
theorem hostLoad_sameStream (pairs : List (Addr × Word)) (s : State) : SameStream s (hostLoad s pairs) := by
  induction pairs generalizing s with
  | nil => exact ⟨rfl, rfl⟩
  | cons p pairs ih => exact ih (s.memWrite p.1 p.2)

/-- SET_REG writes registers only (R133). -/
theorem hostSetReg_sameStream (i : RegIdx) (v : Word) (s : State) : SameStream s (hostSetReg s i v) := by
  rw [hostSetReg]
  split <;> exact ⟨rfl, rfl⟩

/-- A host operation that runs no step leaves the stream alone. -/
theorem hostOp_sameStream {op : HostOp} (hstep : op ≠ .step) (hrun : ∀ fuel, op ≠ .run fuel) (s : State) :
    SameStream s (hostOp op s).2 := by
  cases op with
  | step => exact absurd rfl hstep
  | run fuel => exact absurd rfl (hrun fuel)
  | load pairs => exact hostLoad_sameStream pairs s
  | setReg i v => exact hostSetReg_sameStream i v s
  | reset | getPc | setPc | setRunning | getRunning | observe => exact ⟨rfl, rfl⟩

/-- Settles O20: each transfer moves one word in its own direction, at most one triggers, and without it its end of the stream
is as before. -/
theorem streamMovesOneWordAtThePort : Obligations.StreamMovesOneWordAtThePort := by
  refine ⟨fun i s t h => ⟨fun hread => ?_, fun hwrite => ?_, fun hread hwrite => ?_⟩, fun op s hstep hrun => ?_⟩
  · exact ⟨exec_input_of_readsPort h hread, exec_output_of_not_writesPort h (not_writesPort_of_readsPort hread)⟩
  · have hread : ¬ ReadsPort i s := fun hread => not_writesPort_of_readsPort hread hwrite
    exact ⟨exec_input_of_not_readsPort h hread, exec_output_of_writesPort h hwrite⟩
  · exact ⟨exec_input_of_not_readsPort h hread, exec_output_of_not_writesPort h hwrite⟩
  · exact hostOp_sameStream hstep hrun s

end Sys2Proof.Machine

/-! PROOFS. The I/O trap coordinator's two transfers (60_exceptions.md R151, R152). An instruction that triggers one is of the
Load or Store family with the port as its whole effective address, so its family's rule says what it does; the trap's phases
say that no other instruction moves a word. -/

namespace Sys2Proof.Machine

theorem loadIndirect_isLoad (d t : RegIdx) : IsLoad (.loadIndirect d t) d (.indirect t) := ⟨rfl, rfl⟩

theorem storeIndirect_isStore (d t : RegIdx) : IsStore (.storeIndirect d t) d (.indirect t) := ⟨rfl, rfl⟩

/-! ## The read transfer -/

/-- The read transfer's trigger is a load whose effective address is the port's, in either mode (R151, R153). -/
theorem ReadsPort.isLoad {i : Instr} {s : State} (h : ReadsPort i s) :
    ∃ d m, IsLoad i d m ∧ m.effective s = Config.ioWord ∧ writesRegs i = [d] := by
  rcases h with ⟨d, rfl⟩ | ⟨d, t, rfl, ht⟩
  · exact ⟨d, .absolute 0xFF, load_isLoad d 0xFF, rfl, rfl⟩
  · exact ⟨d, .indirect t, loadIndirect_isLoad d t, ht, rfl⟩

/-- The address check reports its own condition only (R164). -/
theorem addressCheck_ne_inputExhausted (acc : Option Access) : addressCheck acc ≠ some .inputExhausted := by
  match acc with
  | none => simp [addressCheck]
  | some ⟨k, v⟩ =>
    rw [addressCheck_some]
    split <;> simp

/-- An empty queue fails nothing but a read of the port (R162). -/
theorem readsPort_of_exec_inputExhausted {i : Instr} {s : State} (h : exec i s = .fault .inputExhausted) : ReadsPort i s := by
  rw [exec_eq_cycle] at h
  rcases cycle_fault h with hcheck | ⟨-, hpre⟩
  · exact absurd hcheck (addressCheck_ne_inputExhausted _)
  · obtain ⟨-, hacc, -⟩ := preTrap_error hpre
    exact access_eq_portRead.1 hacc

/-- Settles O45: a load from the port reads what the transfer has just put there, and the pre-execute check is the only phase
that takes a word from `IN` or reports that there is none. -/
theorem readTransferComesBeforeTheLoad : Obligations.ReadTransferComesBeforeTheLoad := by
  refine fun i s => ⟨fun hread hin => ?_, fun hread hwf v rest hin => ?_, fun hread => ⟨?_, fun t hexec => ?_⟩⟩
  · obtain ⟨d, m, hload, hport, -⟩ := hread.isLoad
    exact hload.inputExhausted hport hin
  · obtain ⟨d, m, hload, hport, hwrites⟩ := hread.isLoad
    obtain ⟨t, hexec, hloads⟩ := hload.loadsInput hport hwf hin
    exact ⟨d, t, hwrites, hexec, hloads⟩
  · exact mt readsPort_of_exec_inputExhausted hread
  · exact exec_input_of_not_readsPort hexec hread

/-! ## The write transfer -/

/-- The write transfer's trigger is a store whose effective address is the port's, in either mode (R152, R153). -/
theorem WritesPort.isStore {i : Instr} {s : State} (h : WritesPort i s) :
    ∃ d m r, IsStore i d m ∧ m.effective s = Config.ioWord ∧ readsRegs i = d :: r := by
  rcases h with ⟨d, rfl⟩ | ⟨d, t, rfl, ht⟩
  · exact ⟨d, .absolute 0xFF, [], store_isStore d 0xFF, rfl, rfl⟩
  · exact ⟨d, .indirect t, [t], storeIndirect_isStore d t, ht, rfl⟩

/-- A store to the port always completes, leaving its word in `M[0xFF]` and at the end of `OUT` (R152). -/
theorem IsStore.storesWord_port {i : Instr} {d : RegIdx} {m : AddrMode} (h : IsStore i d m) {s : State} (hwf : s.mem.wf)
    (hport : m.effective s = Config.ioWord) : ∃ t, exec i s = .next t ∧ StoresWord 0xFF (s.reg d) s t := by
  have hcell : ¬ Config.maxCell < m.effective s := by rw [hport]; decide
  have hstores := h.storesWord hwf hcell
  rw [cell_of_effective_eq_ioWord hport] at hstores
  exact hstores

/-- Settles O46: a store to the port emits the word it leaves there, and the post-execute check is the only phase that appends
to `OUT`. -/
theorem writeTransferComesAfterTheStore : Obligations.WriteTransferComesAfterTheStore := by
  refine fun i s => ⟨fun hwrite hwf => ?_, fun hwrite t hexec => exec_output_of_not_writesPort hexec hwrite⟩
  obtain ⟨d, m, r, hstore, hport, hreads⟩ := hwrite.isStore
  obtain ⟨t, hexec, hstores⟩ := hstore.storesWord_port hwf hport
  obtain ⟨hcell, -⟩ := hstores.cells
  exact ⟨d, r, t, hreads, hexec, hcell, by rw [hstores.output, if_pos rfl, hcell]⟩

end Sys2Proof.Machine

/-! PROOFS. The decoder and the encoder (30_encoding.md R51, R52, R56). The encoder writes the canonical record of an
instruction's operands, so that the decoder reads it back; of a word that was written otherwise, digit by digit, the encoder
keeps the digits that the operand class makes meaningful. -/

namespace Sys2Proof

/-! ## From an instruction to its word and back -/

/-- The word of an instruction carries the canonical record of its operands. -/
theorem fieldsOf_encode (i : Instr) : fieldsOf (encode i) = i.fields := by
  cases i with
  | halt | add | subtract | and | xor | shiftLeft | shiftRight | loadIndirect | storeIndirect | jumpRegister =>
    exact fieldsOf_digits _ _ _ _
  | loadAddress | load | store | branchZero | branchPositive | jumpAndLink =>
    exact fieldsOf_digitsAddress_eq_ofAddress _ _ _

/-- The fields a class makes meaningful are all that an instruction holds (R52). -/
theorem instrOf_fields (i : Instr) : instrOf i.fields = i := by
  cases i <;> rfl

/-- Settles O2: the word carries the canonical record, which selects the instruction again. -/
theorem decodeOfEncodeIsIdentity : Obligations.DecodeOfEncodeIsIdentity := by
  intro i
  rw [decode, fieldsOf_encode, instrOf_fields]

/-! ## From a word to its instruction and back -/

theorem word_eq_digits (w : Word) : w = digits (fieldsOf w).op.number (fieldsOf w).d (fieldsOf w).s (fieldsOf w).t := by
  refine BitVec.eq_of_toNat_eq ?_
  rw [digits_toNat]
  exact (fieldsStandAtFixedPositions w).1

theorem word_eq_digitsAddress (w : Word) : w = digitsAddress (fieldsOf w).op.number (fieldsOf w).d (fieldsOf w).address := by
  apply BitVec.eq_of_toNat_eq
  obtain ⟨hword, haddress⟩ := fieldsStandAtFixedPositions w
  rw [digitsAddress_toNat, haddress, hword]
  exact Nat.add_assoc _ _ _

/-- A mask acts on each digit of a word separately. -/
theorem word_and_digits (w : Word) (op d s t : Fin 16) :
    w &&& digits op d s t =
      digits ((fieldsOf w).op.number &&& op) ((fieldsOf w).d &&& d) ((fieldsOf w).s &&& s) ((fieldsOf w).t &&& t) := by
  obtain ⟨-, hd, hs, ht, -⟩ := Fields.mk.inj (fieldsOf_digits op d s t)
  have hop : (fieldsOf (digits op d s t)).op.number = op := by rw [fieldsOf_digits, number_ofNumber]
  rw [fieldsOf, number_ofNumber] at hop
  rw [word_eq_digits (w &&& digits op d s t)]
  simp only [fieldsOf, number_ofNumber, BitVec.extractLsb'_and, BitVec.toFin_and, hop, hd, hs, ht]

/-- The digit F of a mask keeps a digit. -/
theorem digit_and_F (x : Fin 16) : x &&& 0xF = x := by
  decide +revert

/-- The digit 0 of a mask clears a digit. -/
theorem digit_and_zero (x : Fin 16) : x &&& 0x0 = 0x0 := by
  decide +revert

/-- The word of a record's fields in an operand class: the digits that the class ignores are written as 0 (R52, R59). -/
def Fields.wordIn (f : Fields) : OperandClass → Word
  | .n => digits f.op.number 0 0 0
  | .r => digits f.op.number f.d f.s f.t
  | .rIndirect => digits f.op.number f.d 0 f.t
  | .a => digitsAddress f.op.number f.d f.address
  | .d => digits f.op.number f.d 0 0

/-- The encoder writes the fields that the opcode's class makes meaningful. -/
theorem encode_instrOf (f : Fields) : encode (instrOf f) = f.wordIn f.op.operandClass := by
  obtain ⟨op, d, s, t, address⟩ := f
  cases op <;> rfl

/-- A class's mask keeps the fields that the class makes meaningful. -/
theorem word_and_meaningfulBits (w : Word) (c : OperandClass) : w &&& c.meaningfulBits = (fieldsOf w).wordIn c := by
  cases c with
  | n => exact (word_and_digits w 0xF 0x0 0x0 0x0).trans (by simp only [digit_and_F, digit_and_zero, Fields.wordIn])
  | r => exact BitVec.and_allOnes.trans (word_eq_digits w)
  | rIndirect => exact (word_and_digits w 0xF 0xF 0x0 0xF).trans (by simp only [digit_and_F, digit_and_zero, Fields.wordIn])
  | a => exact BitVec.and_allOnes.trans (word_eq_digitsAddress w)
  | d => exact (word_and_digits w 0xF 0xF 0x0 0x0).trans (by simp only [digit_and_F, digit_and_zero, Fields.wordIn])

theorem opCode_instrOf (f : Fields) : (instrOf f).opCode = f.op := by
  obtain ⟨op, d, s, t, address⟩ := f
  cases op <;> rfl

/-- Settles O3: the encoder and the mask of the word's class keep the same fields. -/
theorem encodeOfDecodeKeepsMeaningfulBits : Obligations.EncodeOfDecodeKeepsMeaningfulBits := by
  intro w
  rw [word_and_meaningfulBits, decode, opCode_instrOf, encode_instrOf]

/-- The top digit is meaningful in every class (R52). -/
theorem fieldsOf_and_meaningfulBits_op (w : Word) (c : OperandClass) : (fieldsOf (w &&& c.meaningfulBits)).op = (fieldsOf w).op := by
  have hdigits (op d s t : Fin 16) : (fieldsOf (digits op d s t)).op = OpCode.ofNumber op := by
    rw [fieldsOf_digits]
  have haddress (op d : Fin 16) (a : Addr) : (fieldsOf (digitsAddress op d a)).op = OpCode.ofNumber op :=
    (fieldsOf_digitsAddress op d a).1
  rw [word_and_meaningfulBits]
  cases c <;> simp only [Fields.wordIn, hdigits, haddress, ofNumber_number]

/-- Settles O4: the words have one opcode and so one class, and what the encoder makes of either is the word under that class's
mask; by O2 the instructions are equal. -/
theorem ignoredBitsChangeNothing : Obligations.IgnoredBitsChangeNothing := by
  intro w w' hmask
  have hop : (fieldsOf w').op = (fieldsOf w).op := by
    rw [← fieldsOf_and_meaningfulBits_op w', ← hmask, fieldsOf_and_meaningfulBits_op]
  have hopCode : (decode w').opCode = (decode w).opCode := by
    rw [decode, decode, opCode_instrOf, opCode_instrOf, hop]
  have hencode : encode (decode w') = encode (decode w) := by
    rw [encodeOfDecodeKeepsMeaningfulBits, encodeOfDecodeKeepsMeaningfulBits, hopCode, hmask]
  rw [← decodeOfEncodeIsIdentity (decode w'), hencode, decodeOfEncodeIsIdentity]

/-! ## The test vectors -/

/-- Settles O1: the decoder evaluated on nine closed words. -/
theorem specWordsDecode : Obligations.SpecWordsDecode := by
  unfold Obligations.SpecWordsDecode
  decide

end Sys2Proof

/-! PROOFS. The invariant of a step boundary (10_state.md R13, R25; 20_memory.md R40): it holds at creation, every operation on
the machine keeps it, and so it holds after every sequence of them. -/

namespace Sys2Proof.Machine

/-- Settles O15: the register file is all zero and no cell is listed. -/
theorem resetMeetsInvariant : Obligations.ResetMeetsInvariant where
  regZero := by decide
  memWf := Memory.wf_nil

/-! ## One instruction -/

/-- The end of a step leaves memory alone. -/
theorem finish_mem (acc : Option Access) (e : Executed) : (finish acc e).mem = e.1.mem := by
  obtain ⟨s, cont⟩ := e
  cases cont with
  | false => rfl
  | true =>
    obtain ⟨-, -, hmem, -⟩ := finish_frame acc s
    exact hmem

theorem preTrap_memWf {acc : Option Access} {s t : State} (h : preTrap acc s = .ok t) (hwf : s.mem.wf) : t.mem.wf := by
  rcases preTrap_ok h with ⟨rfl, -⟩ | ⟨-, v, rest, -, rfl⟩
  · exact hwf
  · exact memWrite_wf (s := { s with input := rest }) hwf Config.ioAddr v

theorem executorOf_memWf (i : Instr) {s : State} (hwf : s.mem.wf) : (executorOf i s).1.mem.wf := by
  rcases executorOf_mem i s with hmem | ⟨m, v, -, hstore⟩
  · rwa [hmem]
  · rw [hstore]
    exact memWrite_wf hwf _ v

/-- The only writes to memory, the read transfer's and the executor's, keep the canonical form. -/
theorem exec_memWf {i : Instr} {s t : State} (h : exec i s = .next t) (hwf : s.mem.wf) : t.mem.wf := by
  obtain ⟨s', hpre, rfl⟩ := exec_next h
  rw [finish_mem]
  exact executorOf_memWf i (preTrap_memWf hpre hwf)

theorem exec_inv {i : Instr} {s t : State} (h : exec i s = .next t) (hs : s.Inv) : t.Inv where
  regZero := by
    by_cases hi : i = .halt
    · subst hi
      rw [exec_halt_reg h, hs.regZero]
    · exact exec_reg_zero h hi
  memWf := exec_memWf h hs.memWf

/-- Settles O14: a Halted step changes nothing, and a running one is its instruction's in the advanced state. -/
theorem stepKeepsInvariant : Obligations.StepKeepsInvariant := by
  intro s t hs h
  rcases step_next h with ⟨-, rfl⟩ | ⟨-, hexec⟩
  · exact hs
  · exact exec_inv hexec ⟨hs.regZero, hs.memWf⟩

/-! ## The operations from outside -/

/-- The state after a step request is the one before it, or the one a completed step leaves. -/
theorem stepRequest_state (s : State) : (stepRequest s).2 = s ∨ step s = .next (stepRequest s).2 := by
  rw [stepRequest]
  split
  · split
    next t h => exact .inr h
    next => exact .inl rfl
    next => exact .inl rfl
  · exact .inl rfl

theorem stepRequest_inv {s : State} (hs : s.Inv) : (stepRequest s).2.Inv := by
  rcases stepRequest_state s with h | h
  · rwa [h]
  · exact stepKeepsInvariant s _ hs h

/-- A watched RUN is a number of step requests: what every step request keeps, the RUN keeps (R86). -/
theorem runFor_state {P : State → Prop} (hstep : ∀ s, P s → P (stepRequest s).2) (fuel : Nat) {s : State} (hs : P s) :
    P (runFor fuel s).2 := by
  induction fuel generalizing s with
  | zero =>
    rw [runFor]
    split <;> exact hs
  | succ fuel ih =>
    have hnext : P (stepRequest s).2 := hstep s hs
    rw [runFor]
    split
    next t h =>
      rw [h] at hnext
      exact ih hnext
    next r t _ h =>
      rw [h] at hnext
      exact hnext

theorem hostSetReg_inv {s : State} (hs : s.Inv) (i : RegIdx) (v : Word) : (hostSetReg s i v).Inv := by
  rw [hostSetReg]
  split
  · exact hs
  · rename_i hi
    exact ⟨(setReg_reg_of_ne (Ne.symm hi) s v).trans hs.regZero, hs.memWf⟩

theorem hostLoad_inv {s : State} (hs : s.Inv) (pairs : List (Addr × Word)) : (hostLoad s pairs).Inv := by
  induction pairs generalizing s with
  | nil => exact hs
  | cons p pairs ih => exact ih ⟨hs.regZero, memWrite_wf hs.memWf p.1 p.2⟩

theorem hostOp_inv {s : State} (hs : s.Inv) (op : HostOp) : (hostOp op s).2.Inv := by
  cases op with
  | reset => exact ⟨resetMeetsInvariant.regZero, resetMeetsInvariant.memWf⟩
  | setReg i v => exact hostSetReg_inv hs i v
  | load pairs => exact hostLoad_inv hs pairs
  | step => exact stepRequest_inv hs
  | run fuel => exact runFor_state (fun s => stepRequest_inv) fuel hs
  | setPc | setRunning => exact ⟨hs.regZero, hs.memWf⟩
  | getPc | getRunning | observe => exact hs

theorem streamOp_inv {s : State} (hs : s.Inv) (op : StreamOp) : (streamOp op s).2.Inv := by
  cases op with
  | supply words => exact ⟨hs.regZero, hs.memWf⟩
  | readOutput => exact hs

theorem externalOp_inv {z : Session} (hz : z.state.Inv) (op : ExternalOp) : (externalOp op z).2.state.Inv := by
  rcases externalOp_state op z with ⟨o, h⟩ | ⟨o, h⟩ | h <;> rw [h]
  · exact hostOp_inv hz o
  · exact streamOp_inv hz o
  · exact hz

/-- Settles O16: every external operation keeps the invariant, by induction over the sequence of them. -/
theorem sessionKeepsInvariant : Obligations.SessionKeepsInvariant := by
  intro ops
  induction ops with
  | nil => exact fun z hz => hz
  | cons op ops ih =>
    intro z hz
    rw [session_cons]
    exact ih _ (externalOp_inv hz op)

end Sys2Proof.Machine

/-! PROOFS. What a step can come to (40_step_cycle.md R72, R85; 41_halt.md; 60_exceptions.md R162, R164). Halt always completes,
and an instruction fails in one of the two checks that stand before its execute phase and nowhere else. -/

namespace Sys2Proof

/-- A word whose top digit is 0 is a Halt, whatever its other digits (30_encoding.md R52, R56). -/
theorem decode_eq_halt_of_lt {w : Word} (h : w.toNat < 2 ^ 12) : decode w = .halt := by
  have hnumber : (fieldsOf w).op.number = OpCode.halt.number := by
    apply Fin.ext
    rw [fieldsOf_op_number_val, Nat.div_eq_of_lt h]
    rfl
  have hop : (fieldsOf w).op = .halt := by
    rw [← ofNumber_number (fieldsOf w).op, hnumber, ofNumber_number]
  rw [decode, instrOf, hop]

end Sys2Proof

namespace Sys2Proof.Machine

/-! ## Halt and the Halted machine -/

theorem exec_halt (s : State) : exec .halt s = .next (s.setRunning false) := rfl

/-- Settles O25: the words below 0x1000 have the top digit 0, and the one effect of Halt is the controller's transition. -/
theorem haltClearsRunningOnly : Obligations.HaltClearsRunningOnly := by
  refine ⟨fun n hn => decode_eq_halt_of_lt ?_, exec_halt⟩
  rw [BitVec.toNat_ofNat]
  omega

theorem step_of_halted {s : State} (h : s.running = false) : step s = .next s := by
  rw [step, if_neg (by simp [h])]

theorem stepRequest_of_halted {s : State} (h : s.running = false) : stepRequest s = (.idle, s) := by
  rw [stepRequest, if_neg (by simp [h])]

theorem runFor_of_halted {s : State} (h : s.running = false) (fuel : Nat) : runFor fuel s = (some .idle, s) := by
  cases fuel with
  | zero => rw [runFor, if_neg (by simp [h])]
  | succ fuel => simp only [runFor, stepRequest_of_halted h]

/-- Settles O7: each of the three asks for `running` first. -/
theorem haltedMachineDoesNothing : Obligations.HaltedMachineDoesNothing :=
  fun _ h => ⟨step_of_halted h, stepRequest_of_halted h, runFor_of_halted h⟩

/-! ## The results of a step request -/

theorem step_not_refused (s : State) (r : Refusal) : step s ≠ .refused r := by
  rw [step]
  split
  · exact exec_not_refused _ _ r
  · simp

theorem stepRequest_of_fault {s : State} {e : Fault} (h : step s = .fault e) : stepRequest s = (.failed e, s) := by
  obtain ⟨hrun, -⟩ := step_fault h
  simp only [stepRequest, hrun, h, if_true]

theorem step_of_fetched_halt {s : State} (hrun : s.running = true) (h : fetched s = .halt) :
    step s = .next { s with pc := s.pc + 1, running := false } := by
  rw [step_of_running hrun, h, exec_halt, advancePc_eq_setPc]
  rfl

/-- Settles O8: by the flag, then by the outcome of the step, a completed one being a Halt or not. -/
theorem stepRequestReportsOneOfFourResults : Obligations.StepRequestReportsOneOfFourResults := by
  intro s
  cases hrun : s.running with
  | false => exact .inl ⟨rfl, stepRequest_of_halted hrun⟩
  | true =>
    right
    cases h : step s with
    | refused r => exact absurd h (step_not_refused s r)
    | fault e => exact .inr (.inr ⟨rfl, e, rfl, stepRequest_of_fault h⟩)
    | next t =>
      by_cases hhalt : fetched s = .halt
      · have hstep := step_of_fetched_halt hrun hhalt
        exact .inr (.inl ⟨rfl, hhalt, stepRequest_of_next hrun hstep⟩)
      · obtain ⟨hcontinues, -⟩ := onlyHaltEndsRunning s t hrun h
        obtain ⟨ht, hresult⟩ := hcontinues hhalt
        exact .inl ⟨rfl, hhalt, t, rfl, ht, hresult⟩

/-! ## Failures -/

/-- The address check fails exactly on an indirect address that names no cell (R164). -/
theorem addressCheck_access_eq_some {i : Instr} {s : State} {e : Fault} :
    addressCheck (access i s) = some e ↔
      ∃ d r, (i = .loadIndirect d r ∨ i = .storeIndirect d r) ∧ 0x00FF < (s.reg r).toNat ∧ e = .outOfRange (s.reg r) := by
  have hindirect (k : AccessKind) (v : Word) : addressCheck (some ⟨k, v⟩) = some e ↔ 0x00FF < v.toNat ∧ e = .outOfRange v := by
    rw [addressCheck_some, Option.ite_none_right_eq_some, Option.some.injEq, maxCell_lt_iff, eq_comm (a := e)]
  cases i with
  | loadIndirect d r | storeIndirect d r => simp [access, accessMode, AddrMode.effective, hindirect]
  | load d a | store d a => simp [access, accessMode, AddrMode.effective, addressCheck_zext16]
  | _ => simp [access, accessMode, addressCheck]

/-- An instruction fails exactly on a read of the port with `IN` empty, or on an indirect address that names no cell. -/
theorem exec_eq_fault {i : Instr} {s : State} {e : Fault} :
    exec i s = .fault e ↔
      (e = .inputExhausted ∧ ReadsPort i s ∧ s.input = []) ∨
      ∃ d r, (i = .loadIndirect d r ∨ i = .storeIndirect d r) ∧ 0x00FF < (s.reg r).toNat ∧ e = .outOfRange (s.reg r) := by
  rw [← addressCheck_access_eq_some]
  constructor
  · intro h
    rw [exec_eq_cycle] at h
    rcases cycle_fault h with hcheck | ⟨-, hpre⟩
    · exact .inr hcheck
    · obtain ⟨he, hacc, hin⟩ := preTrap_error hpre
      exact .inl ⟨he, access_eq_portRead.1 hacc, hin⟩
  · rintro (⟨rfl, hread, hin⟩ | hcheck)
    · obtain ⟨d, m, hload, hport, -⟩ := hread.isLoad
      exact hload.inputExhausted hport hin
    · rw [exec_eq_cycle, cycle_of_addressCheck hcheck]

theorem step_eq_fault {s : State} {e : Fault} :
    step s = .fault e ↔ s.running = true ∧ exec (fetched s) s.advancePc = .fault e := by
  refine ⟨step_fault, fun ⟨hrun, h⟩ => ?_⟩
  rw [step_of_running hrun, h]

/-- Settles O9: an instruction's failures are those of its two checks, which the default advance does not move. -/
theorem stepFailsExactlyWhen : Obligations.StepFailsExactlyWhen := by
  refine fun s => ⟨step_not_refused s, fun e => ?_⟩
  rw [step_eq_fault, exec_eq_fault]
  rfl

end Sys2Proof.Machine

/-! PROOFS. Where a step leaves `pc` and memory (10_state.md R17, 20_memory.md R31, R44), and the canonical form (log 1). Both are
decided by the executor's rule, but for the cell that the read transfer writes. -/

namespace Sys2Proof.Machine

/-! ## The program counter -/

/-- The end of a step leaves `pc` alone. -/
theorem finish_pc (acc : Option Access) (e : Executed) : (finish acc e).pc = e.1.pc := by
  obtain ⟨s, cont⟩ := e
  cases cont with
  | false => rfl
  | true =>
    obtain ⟨hpc, -⟩ := finish_frame acc s
    exact hpc

/-- BranchPositive is taken exactly on the values that are not 0 (R121). -/
theorem isPositive_iff_ne_zero (v : Word) : isPositive v = true ↔ v ≠ 0x0000 := by
  rw [isPositive_eq, isZero, Bool.not_eq_true', beq_eq_false_iff_ne]

/-- The executor's rule, given the advanced `pc`, assigns `pc` as the instruction's row says (R120 to R123). -/
theorem executorOf_pc {i : Instr} {s s' : State} (hpc : s'.pc = s.pc + 1) (hregs : s'.regs = s.regs) :
    (executorOf i s').1.pc = nextPc i s := by
  have hreg := reg_of_regs_eq hregs
  cases i with
  | halt | add | subtract | and | xor | shiftLeft | shiftRight | loadAddress | load | store | loadIndirect | storeIndirect =>
    exact hpc
  | branchZero d a =>
    simp only [executorOf, applyBranch_eq_setPc, setPc_pc, nextPc, isZero, beq_iff_eq, hreg, hpc]
  | branchPositive d a =>
    simp only [executorOf, applyBranch_eq_setPc, setPc_pc, nextPc, isPositive_iff_ne_zero, ite_not, hreg, hpc]
  | jumpRegister d => exact congrArg lowByte (hreg d)
  | jumpAndLink d a => rfl

/-- Settles O10: only the default advance and the executor's rule assign `pc`. -/
theorem completedStepSetsPc : Obligations.CompletedStepSetsPc := by
  intro s t hrun h
  rw [step_of_running hrun] at h
  obtain ⟨s', hpre, rfl⟩ := exec_next h
  obtain ⟨hpc, hregs, -⟩ := preTrap_frame hpre
  rw [finish_pc]
  exact executorOf_pc (hpc.trans (advancePc_pc s)) hregs

/-! ## The cells that change -/

theorem preTrap_memRead {acc : Option Access} {s t : State} (h : preTrap acc s = .ok t) {a : Addr}
    (ha : ¬ (acc = some ⟨.read, Config.ioWord⟩ ∧ a = Config.ioAddr)) : t.memRead a = s.memRead a := by
  rcases preTrap_ok h with ⟨rfl, -⟩ | ⟨hacc, v, rest, -, rfl⟩
  · rfl
  · exact memWrite_memRead_other { s with input := rest } v fun hport => ha ⟨hacc, hport⟩

theorem cell_of_regs_eq {s t : State} (h : t.regs = s.regs) (m : AddrMode) : m.cell t = m.cell s :=
  congrArg cellOf (effective_of_regs_eq h m)

theorem executorOf_memRead {i : Instr} {s : State} {a : Addr} (ha : ¬ StoresTo i s a) :
    (executorOf i s).1.memRead a = s.memRead a := by
  rcases executorOf_mem i s with hmem | ⟨m, v, hmode, hstore⟩
  · exact memRead_of_mem_eq hmem a
  · rw [hstore]
    exact memWrite_memRead_other s v fun hcell => ha ⟨m, hmode, hcell⟩

/-- Where an instruction stores depends on the registers only. -/
theorem storesTo_of_regs_eq {i : Instr} {s t : State} (h : t.regs = s.regs) {a : Addr} (ht : StoresTo i t a) : StoresTo i s a := by
  obtain ⟨m, hmode, hcell⟩ := ht
  exact ⟨m, hmode, hcell.trans (cell_of_regs_eq h m)⟩

/-- Settles O19: the pre-execute check writes only the port and only on a read of it, the executor only the cell it stores to,
and the end of a step none. -/
theorem memoryChangesOnlyWhereStored : Obligations.MemoryChangesOnlyWhereStored := by
  intro i s t a h hstore hread
  obtain ⟨s', hpre, rfl⟩ := exec_next h
  obtain ⟨-, hregs, -⟩ := preTrap_frame hpre
  rw [← access_eq_portRead] at hread
  rw [memRead_of_mem_eq (finish_mem _ _), executorOf_memRead (mt (storesTo_of_regs_eq hregs) hstore), preTrap_memRead hpre hread]

/-! ## The canonical form -/

theorem Memory.read_cons_self (a : Nat) (v : Word) (m : Memory) : Memory.read ((a, v) :: m) a = v :=
  if_pos rfl

theorem Memory.read_cons_of_ne {a b : Nat} (h : b ≠ a) (v : Word) (m : Memory) : Memory.read ((a, v) :: m) b = m.read b :=
  if_neg h

/-- The head of a canonical memory stands below the other cells and differs from its reset content. -/
theorem Memory.wf_head {a : Nat} {v : Word} {m : Memory} (h : Memory.wf ((a, v) :: m)) :
    (∀ c ∈ m, a < c.1) ∧ a < Config.memSize ∧ v ≠ Config.resetCell := by
  obtain ⟨hrising, hcells⟩ := h
  exact ⟨(List.pairwise_cons.1 hrising).1, hcells _ List.mem_cons_self⟩

/-- A canonical memory that does not list its first cell as another does reads differently there. -/
theorem Memory.read_head_ne {a : Nat} {v : Word} {m n : Memory} (hm : Memory.wf ((a, v) :: m)) (hn : ∀ c ∈ n, a < c.1) :
    Memory.read ((a, v) :: m) a ≠ n.read a := by
  obtain ⟨-, -, hv⟩ := Memory.wf_head hm
  rwa [Memory.read_cons_self, Memory.read_below hn]

/-- Settles O23: the lists have the same head, the lowest cell that is not at its reset content, and so by induction the same
rest. -/
theorem memoryIsDeterminedByItsCells : Obligations.MemoryIsDeterminedByItsCells := by
  intro m
  induction m with
  | nil =>
    intro n _ hn hread
    match n with
    | [] => rfl
    | (b, v) :: n =>
      obtain ⟨-, hb, -⟩ := Memory.wf_head hn
      exact absurd (hread b hb).symm (Memory.read_head_ne hn (by simp))
  | cons c m ih =>
    obtain ⟨a, u⟩ := c
    intro n hm hn hread
    obtain ⟨hbelow, ha, -⟩ := Memory.wf_head hm
    match n with
    | [] => exact absurd (hread a ha) (Memory.read_head_ne hm (by simp))
    | (b, v) :: n =>
      obtain ⟨hbelow', hb, -⟩ := Memory.wf_head hn
      rcases Nat.lt_trichotomy a b with hab | rfl | hba
      · exact absurd (hread a ha) (Memory.read_head_ne hm (List.forall_mem_cons.2 ⟨hab, fun c hc => hab.trans (hbelow' c hc)⟩))
      · have huv : u = v := by simpa only [Memory.read_cons_self] using hread a ha
        have hrest : m = n := by
          refine ih n (Memory.wf_tail hm) (Memory.wf_tail hn) fun k hk => ?_
          by_cases hka : k = a
          · rw [hka, Memory.read_below hbelow, Memory.read_below hbelow']
          · simpa only [Memory.read_cons_of_ne hka] using hread k hk
        rw [huv, hrest]
      · exact absurd (hread b hb).symm (Memory.read_head_ne hn (List.forall_mem_cons.2 ⟨hba, fun c hc => hba.trans (hbelow c hc)⟩))

/-! ## Self-modification -/

theorem cellOf_eq_of_toNat_eq {v : Word} {a : Addr} (h : v.toNat = a.toNat) : ¬ Config.maxCell < v ∧ cellOf v = a := by
  have hv : v = zext16 a := BitVec.eq_of_toNat_eq (h.trans (zext16_toNat a).symm)
  subst hv
  exact ⟨not_maxCell_lt_zext16 a, cellOf_zext16 a⟩

/-- A completed instruction of the Store family leaves `x[d]` in the cell it addresses. -/
theorem IsStore.memRead_cell {i : Instr} {d : RegIdx} {m : AddrMode} (h : IsStore i d m) {s t : State} (hwf : s.mem.wf)
    (hcell : ¬ Config.maxCell < m.effective s) (hexec : exec i s = .next t) : t.memRead (m.cell s) = s.reg d := by
  obtain ⟨u, hu, hstores⟩ := h.storesWord hwf hcell
  obtain rfl : u = t := Host.Outcome.next.inj (hu.symm.trans hexec)
  exact hstores.cells.1

theorem IsStore.ne_halt {i : Instr} {d : RegIdx} {m : AddrMode} (h : IsStore i d m) : i ≠ .halt := by
  rintro rfl
  cases h.mode

/-- Settles O24: a store is no Halt and leaves its word in the cell it addresses, which is the one that the next step fetches. -/
theorem storeIsSeenByTheNextFetch : Obligations.StoreIsSeenByTheNextFetch := by
  intro s t d hrun hwf h hfetched
  have hstore : ∃ m, IsStore (fetched s) d m ∧ ¬ Config.maxCell < m.effective s.advancePc ∧ m.cell s.advancePc = t.pc := by
    rcases hfetched with hi | ⟨r, hi, hr⟩ <;> rw [hi]
    · exact ⟨_, store_isStore d t.pc, not_maxCell_lt_zext16 t.pc, cell_absolute t.pc _⟩
    · exact ⟨_, storeIndirect_isStore d r, cellOf_eq_of_toNat_eq hr⟩
  obtain ⟨m, hstore, hcell, hpc⟩ := hstore
  have ht : t.running = true := (step_running hrun h).2 hstore.ne_halt
  rw [step_of_running hrun] at h
  have hread : t.memRead t.pc = s.reg d := by
    rw [← hpc]
    exact hstore.memRead_cell hwf hcell h
  rw [stepRunsTheFetchedInstruction t ht, hread]

end Sys2Proof.Machine

/-! PROOFS. What of the word stream a step does not see (50_interfaces.md R141 to R143): the words already in `OUT` and, if it
completes, those behind the head of `IN`. Each phase commutes with a change of either, so the step does. -/

namespace Sys2Proof.Machine

/-- A change of the state that a completed step commutes with, as its phases do. -/
structure CommutesWithPhases (g : State → State) : Prop where
  pc      : ∀ s, (g s).pc = s.pc
  regs    : ∀ s, (g s).regs = s.regs
  mem     : ∀ s, (g s).mem = s.mem
  running : ∀ s, (g s).running = s.running
  advance : ∀ s, (g s).advancePc = g s.advancePc
  preTrap : ∀ {acc s s'}, preTrap acc s = .ok s' → preTrap acc (g s) = .ok (g s')
  execute : ∀ i s, executorOf i (g s) = (g (executorOf i s).1, (executorOf i s).2)
  finish  : ∀ acc s b, finish acc (g s, b) = g (finish acc (s, b))

/-- An access depends on the registers only (R76, R153). -/
theorem access_of_regs_eq {s t : State} (h : t.regs = s.regs) (i : Instr) : access i t = access i s := by
  simp only [access, effective_of_regs_eq h]

namespace CommutesWithPhases

variable {g : State → State}

theorem exec_next (hg : CommutesWithPhases g) {i : Instr} {s t : State} (h : exec i s = .next t) : exec i (g s) = .next (g t) := by
  rw [exec_eq_cycle] at h ⊢
  obtain ⟨hcheck, s', hpre, rfl⟩ := cycle_next h
  have hacc := access_of_regs_eq (hg.regs s) i
  rw [← hacc] at hcheck
  rw [cycle_of_preTrap_ok hcheck (hacc.symm ▸ hg.preTrap hpre), hacc, hg.execute, hg.finish]

theorem fetched (hg : CommutesWithPhases g) (s : State) : fetched (g s) = fetched s := by
  rw [Machine.fetched, Machine.fetched, fetch, fetch, memRead_of_mem_eq (hg.mem s), hg.pc]

theorem step_next (hg : CommutesWithPhases g) {s t : State} (h : step s = .next t) : step (g s) = .next (g t) := by
  rcases Machine.step_next h with ⟨hrun, rfl⟩ | ⟨hrun, hexec⟩
  · exact step_of_halted ((hg.running t).trans hrun)
  · rw [step_of_running ((hg.running s).trans hrun), hg.fetched, hg.advance]
    exact hg.exec_next hexec

end CommutesWithPhases

/-! ## Both ends of the stream -/

/-- The executor acts alike whatever the stream holds, and leaves it (R79). -/
theorem executorOf_withStream (i : Instr) (s : State) (q o : List Word) :
    executorOf i { s with input := q, output := o } =
      ({ (executorOf i s).1 with input := q, output := o }, (executorOf i s).2) := by
  cases i with
  | branchZero d a | branchPositive d a =>
    simp only [executorOf, applyBranch_eq_setPc]
    rfl
  | _ => rfl

/-- The state with more words in front of the log. -/
def prependOutput (earlier : List Word) (s : State) : State := { s with output := earlier ++ s.output }

theorem prependOutput_commutesWithPhases (earlier : List Word) : CommutesWithPhases (prependOutput earlier) where
  pc _ := rfl
  regs _ := rfl
  mem _ := rfl
  running _ := rfl
  advance _ := rfl
  preTrap := by
    intro acc s s' h
    rcases preTrap_ok h with ⟨rfl, hacc⟩ | ⟨rfl, v, rest, hin, rfl⟩
    · exact preTrap_of_not_portRead hacc _
    · rw [preTrap_portRead, readTransfer_cons (s := prependOutput earlier s) hin]
      rfl
  execute := by
    intro i s
    obtain ⟨hin, hout, -⟩ := executorOf_frame i s
    refine (executorOf_withStream i s s.input (earlier ++ s.output)).trans ?_
    rw [prependOutput, ← hin, ← hout]
  finish := by
    intro acc s b
    match b, acc with
    | false, _ => rfl
    | true, none => rfl
    | true, some ⟨.read, _⟩ => rfl
    | true, some ⟨.write, a⟩ =>
      simp only [finish, postTrap]
      split
      · exact State.ext_fields rfl rfl rfl rfl rfl (List.append_assoc earlier s.output _)
      · rfl

theorem supplyInput_commutesWithPhases (words : List Word) : CommutesWithPhases (supplyInput · words) where
  pc _ := rfl
  regs _ := rfl
  mem _ := rfl
  running _ := rfl
  advance _ := rfl
  preTrap := by
    intro acc s s' h
    rcases preTrap_ok h with ⟨rfl, hacc⟩ | ⟨rfl, v, rest, hin, rfl⟩
    · exact preTrap_of_not_portRead hacc _
    · have hin' : (supplyInput s words).input = v :: (rest ++ words) := congrArg (· ++ words) hin
      rw [preTrap_portRead, readTransfer_cons hin']
      rfl
  execute := by
    intro i s
    obtain ⟨hin, hout, -⟩ := executorOf_frame i s
    refine (executorOf_withStream i s (s.input ++ words) s.output).trans ?_
    rw [supplyInput, ← hin, ← hout]
  finish := by
    intro acc s b
    match b, acc with
    | false, _ => rfl
    | true, none => rfl
    | true, some ⟨.read, _⟩ => rfl
    | true, some ⟨.write, a⟩ =>
      simp only [finish, postTrap]
      split <;> rfl

/-- Settles O22: appending behind the queue commutes with every phase that does not fail. -/
theorem laterInputDoesNotChangeAStep : Obligations.LaterInputDoesNotChangeAStep :=
  fun _ _ words h => (supplyInput_commutesWithPhases words).step_next h

/-- What makes a step fail is not in the log (R162, R164). -/
theorem step_fault_prependOutput {s : State} {e : Fault} (h : step s = .fault e) (earlier : List Word) :
    step (prependOutput earlier s) = .fault e := by
  rw [step_eq_fault, exec_eq_fault] at h ⊢
  exact h

/-- Settles O21: words in front of the log commute with every phase, and no failure depends on them. -/
theorem outputLogIsNeverRead : Obligations.OutputLogIsNeverRead := by
  intro s earlier
  split
  next t h => exact (prependOutput_commutesWithPhases earlier).step_next h
  next e h => exact step_fault_prependOutput h earlier
  next r h => exact absurd h (step_not_refused s r)

/-! ## Resuming after a failure -/

theorem stepRequest_failed {s s' : State} {e : Fault} (h : stepRequest s = (.failed e, s')) : s' = s ∧ step s = .fault e := by
  rcases stepRequestReportsOneOfFourResults s with ⟨-, hr⟩ | ⟨-, -, t, -, -, hr⟩ | ⟨-, -, hr⟩ | ⟨-, f, hstep, hr⟩ <;>
    rw [hr] at h <;> cases h
  exact ⟨rfl, hstep⟩

/-- A read of the port completes as soon as `IN` holds a word, in any form of memory. -/
theorem exec_next_of_readsPort {i : Instr} {s : State} (h : ReadsPort i s) {v : Word} {rest : List Word} (hin : s.input = v :: rest) :
    ∃ t, exec i s = .next t ∧ t.input = rest := by
  obtain ⟨d, m, hload, hport, -⟩ := h.isLoad
  have hcell : ¬ Config.maxCell < m.effective s := by rw [hport]; decide
  have hpre : preTrap (some ⟨.read, m.effective s⟩) s = .ok (s.pullInput v rest) := by
    rw [hport, preTrap_portRead, readTransfer_eq_pullInput hin]
  exact ⟨_, hload.exec_of_preTrap hcell hpre, rfl⟩

theorem IsLoad.ne_halt {i : Instr} {d : RegIdx} {m : AddrMode} (h : IsLoad i d m) : i ≠ .halt := by
  rintro rfl
  cases h.mode

/-- After InputExhausted one word is enough for the same instruction to complete (R162, R168). -/
theorem stepRequest_supplyInput_of_inputExhausted {s : State} (h : step s = .fault .inputExhausted) (v : Word) :
    ∃ t, stepRequest (supplyInput s [v]) = (.continued, t) ∧ t.input = [] := by
  obtain ⟨hrun, hexec⟩ := step_fault h
  obtain ⟨-, hread, hin⟩ | ⟨d, r, -, -, he⟩ := exec_eq_fault.1 hexec
  · obtain ⟨d, m, hload, -⟩ := hread.isLoad
    have hin' : (supplyInput s [v]).advancePc.input = v :: [] := congrArg (· ++ [v]) hin
    obtain ⟨t, hnext, ht⟩ := exec_next_of_readsPort (s := (supplyInput s [v]).advancePc) hread hin'
    have hstep : step (supplyInput s [v]) = .next t := (step_of_running (s := supplyInput s [v]) hrun).trans hnext
    obtain ⟨hcontinues, -⟩ := onlyHaltEndsRunning (supplyInput s [v]) t hrun hstep
    exact ⟨t, (hcontinues hload.ne_halt).2, ht⟩
  · cases he

/-- More input does not bring an address into range (R164). -/
theorem step_supplyInput_of_outOfRange {s : State} {w : Word} (h : step s = .fault (.outOfRange w)) (words : List Word) :
    step (supplyInput s words) = .fault (.outOfRange w) := by
  rw [step_eq_fault, exec_eq_fault] at h ⊢
  obtain ⟨hrun, ⟨he, -⟩ | hrange⟩ := h
  · cases he
  · exact ⟨hrun, .inr hrange⟩

/-- Settles O47: the requester still holds the state from before the step, and more input meets the one condition and not the
other. -/
theorem failedRequestCanBeResumed : Obligations.FailedRequestCanBeResumed := by
  intro s s' e h
  obtain ⟨rfl, hstep⟩ := stepRequest_failed h
  refine ⟨rfl, ?_, ?_⟩
  · rintro rfl v
    exact stepRequest_supplyInput_of_inputExhausted hstep v
  · rintro w rfl words
    exact stepRequest_of_fault (step_supplyInput_of_outOfRange hstep words)

end Sys2Proof.Machine

/-! PROOFS. The step against the spec's summary of it as one function (40_step_cycle.md section 6). The summary works on the
decoder's five fields and the snapshot of `x[t]`; each of its conditions and effects is that of one phase of `cycle` for the
instruction that the fields select. -/

namespace Sys2Proof.Machine

/-! ## The conditions -/

theorem addressCheck_access_instrOf (f : Fields) (s : State) :
    addressCheck (access (instrOf f) s) =
      if (f.op = .loadIndirect ∨ f.op = .storeIndirect) ∧ s.reg f.t > 0x00FF then some (.outOfRange (s.reg f.t)) else none := by
  obtain ⟨op, d, x, y, a⟩ := f
  cases op with
  | load | store => exact (addressCheck_zext16 _ a).trans (if_neg (by simp)).symm
  | loadIndirect | storeIndirect => exact if_congr (and_iff_right (by simp)).symm rfl rfl
  | _ => exact (if_neg (by simp)).symm

theorem readsPort_instrOf {f : Fields} {s : State} :
    ReadsPort (instrOf f) s ↔ (f.op = .load ∧ f.address = 0xFF) ∨ (f.op = .loadIndirect ∧ s.reg f.t = 0x00FF) := by
  obtain ⟨op, d, x, y, a⟩ := f
  cases op <;> simp [ReadsPort, instrOf]

theorem writesPort_instrOf {f : Fields} {s : State} :
    WritesPort (instrOf f) s ↔ (f.op = .store ∧ f.address = 0xFF) ∨ (f.op = .storeIndirect ∧ s.reg f.t = 0x00FF) := by
  obtain ⟨op, d, x, y, a⟩ := f
  cases op <;> simp [WritesPort, instrOf]

/-! ## The effects -/

/-- The effects of the opcode map are the executor's rules (R54, R79). -/
theorem summaryExecute_eq_executorOf (f : Fields) (s : State) : summaryExecute f s = executorOf (instrOf f) s := by
  obtain ⟨op, d, x, y, a⟩ := f
  cases op with
  | add | subtract | shiftLeft | shiftRight =>
    simp only [summaryExecute, instrOf, executorOf, applyAlu, aluAdd_eq, aluSubtract_eq, aluShiftLeft_eq, aluShiftRight_eq]
  | load | store => simp only [summaryExecute, instrOf, executorOf, applyLoad, applyStore, cell_absolute]
  | branchZero => simp only [summaryExecute, instrOf, executorOf, applyBranch, isZero, beq_iff_eq]
  | branchPositive => simp only [summaryExecute, instrOf, executorOf, applyBranch, isPositive_iff_ne_zero]
  | halt | and | xor | loadAddress | loadIndirect | storeIndirect | jumpRegister | jumpAndLink => rfl

/-- The report and the state of a step whose executor handed back `e` (R79 to R82, R85). -/
def report (acc : Option Access) (e : Executed) : StepResult × State :=
  (if e.2 then .continued else .halted, finish acc e)

/-- The end of the summary is the end of a step, with the access as it was before the execute phase (R153). -/
theorem summaryFinish_eq_report (f : Fields) (p : Addr) (s u : State) :
    summaryFinish f p (u.reg f.t) s = report (access (instrOf f) u) (executorOf (instrOf f) (s.setPc (p + 1))) := by
  rw [summaryFinish, summaryExecute_eq_executorOf]
  generalize executorOf (instrOf f) (s.setPc (p + 1)) = e
  obtain ⟨t, cont⟩ := e
  cases cont with
  | false => rfl
  | true =>
    simp only [← writesPort_instrOf, ← access_eq_portWrite, report]
    rcases finish_continue (access (instrOf f) u) t with ⟨hfin, hacc⟩ | ⟨hfin, hacc⟩
    · rw [if_neg fun h => hacc _ h rfl, hfin]
      rfl
    · rw [if_pos hacc, hfin]
      rfl

/-! ## The whole step -/

/-- A running step that passes both checks reports what its executor hands back. -/
theorem stepRequest_of_preTrap {s s' : State} (hrun : s.running = true) (hcheck : addressCheck (access (fetched s) s) = none)
    (hpre : preTrap (access (fetched s) s) s.advancePc = .ok s') :
    stepRequest s = report (access (fetched s) s) (executorOf (fetched s) s') := by
  have hacc : access (fetched s) s.advancePc = access (fetched s) s := access_of_regs_eq (advancePc_regs s) _
  have hstep : step s = .next (finish (access (fetched s) s) (executorOf (fetched s) s')) := by
    rw [← hacc] at hcheck hpre
    rw [step_of_running hrun, exec_eq_cycle, cycle_of_preTrap_ok hcheck hpre, hacc]
  obtain ⟨-, -, hrunning', -⟩ := preTrap_frame hpre
  obtain ⟨-, -, hrunning⟩ := executorOf_frame (fetched s) s'
  have hflag : (executorOf (fetched s) s').1.running = true := by rw [hrunning, hrunning', advancePc_running, hrun]
  rw [stepRequest_of_next hrun hstep, finish_running, hflag, Bool.true_and, report]

/-- A running step that does not pass the checks reports the condition and keeps the state (R83, R160). -/
theorem stepRequest_of_exec_fault {s : State} {e : Fault} (hrun : s.running = true) (h : exec (fetched s) s = .fault e) :
    stepRequest s = (.failed e, s) := by
  have hcases := exec_eq_fault.1 h
  apply stepRequest_of_fault
  rw [step_eq_fault, exec_eq_fault]
  exact ⟨hrun, hcases⟩

/-- Settles O13: by the summary's own cases, each of which is decided by the phase that the model has for it. -/
theorem stepRequestEqualsSummary : Obligations.StepRequestEqualsSummary := by
  intro s
  by_cases hhalted : s.running = false
  · rw [summaryStep, if_pos hhalted]
    exact stepRequest_of_halted hhalted
  have hrun : s.running = true := by simpa using hhalted
  rw [summaryStep, if_neg hhalted]
  dsimp only
  generalize hf : fieldsOf (s.memRead s.pc) = f
  have hfetched : instrOf f = fetched s := congrArg instrOf hf.symm
  have hcheck := addressCheck_access_instrOf f s
  have hport := readsPort_instrOf (f := f) (s := s)
  simp only [summaryFinish_eq_report]
  rw [hfetched] at hcheck hport ⊢
  split
  next hrange =>
    rw [if_pos hrange] at hcheck
    refine stepRequest_of_exec_fault hrun ?_
    rw [exec_eq_cycle, cycle_of_addressCheck hcheck]
  next hrange =>
    rw [if_neg hrange] at hcheck
    split
    next hread =>
      split
      next hin => exact stepRequest_of_exec_fault hrun (exec_eq_fault.2 (.inl ⟨rfl, hport.2 hread, hin⟩))
      next v rest hin =>
        refine stepRequest_of_preTrap hrun hcheck ?_
        rw [access_eq_portRead.2 (hport.2 hread), preTrap_portRead, readTransfer_cons (s := s.advancePc) hin, advancePc_eq_setPc]
        rfl
    next hread =>
      refine stepRequest_of_preTrap hrun hcheck ?_
      rw [preTrap_of_not_portRead (fun hacc => hread (hport.1 (access_eq_portRead.1 hacc))), advancePc_eq_setPc]

end Sys2Proof.Machine

/-! PROOFS. The ALU's six functions (42_alu.md R101 to R106, R109). The shape that the six share gives the effect; what is left to
each is what its function computes. -/

namespace Sys2Proof.Machine

/-- The shared shape with what is known of the value written. -/
theorem HasAluShape.exec_value {f : Word → Word → Word} {make : RegIdx → RegIdx → RegIdx → Instr} (h : HasAluShape f make)
    {P : Word → Prop} (d : RegIdx) {x y : RegIdx} {s : State} (hvalue : P (f (s.reg x) (s.reg y))) :
    ∃ t v, Machine.exec (make d x y) s = .next t ∧ WritesReg d v s t ∧ P v := by
  obtain ⟨t, hexec, hwrites⟩ := h.exec d x y s
  exact ⟨t, f (s.reg x) (s.reg y), hexec, hwrites, hvalue⟩

/-! ## Sum and difference -/

theorem aluAdd_toNat (a b : Word) : (aluAdd a b).toNat = (a.toNat + b.toNat) % 0x10000 := by
  rw [aluAdd_eq, BitVec.toNat_add]

theorem aluAdd_toInt (a b : Word) : (aluAdd a b).toInt = (a.toInt + b.toInt).bmod 0x10000 := by
  rw [aluAdd_eq, BitVec.toInt_add]

theorem aluSubtract_toInt (a b : Word) : (aluSubtract a b).toInt = (a.toInt - b.toInt).bmod 0x10000 := by
  rw [aluSubtract_eq, BitVec.toInt_sub]

/-- "A negative result wraps": the unsigned form of the difference (R102). -/
theorem aluSubtract_toNat (a b : Word) :
    ((aluSubtract a b).toNat : Int) = if b.toNat ≤ a.toNat then (a.toNat : Int) - b.toNat else (a.toNat : Int) - b.toNat + 0x10000 := by
  have := a.isLt; have := b.isLt
  rw [aluSubtract_eq, BitVec.toNat_sub]
  split <;> omega

/-- Settles O27: Add has the shared shape, for the sum in either reading. -/
theorem addWritesTheWrappedSum : Obligations.AddWritesTheWrappedSum :=
  fun d x y => ⟨decode_digits .add d x y, fun _ => add_hasAluShape.exec_value d ⟨aluAdd_toNat _ _, aluAdd_toInt _ _⟩⟩

/-- Settles O28: Subtract has the shared shape, for the difference in either reading. -/
theorem subtractWritesTheWrappedDifference : Obligations.SubtractWritesTheWrappedDifference :=
  fun d x y => ⟨decode_digits .subtract d x y, fun _ =>
    subtract_hasAluShape.exec_value d ⟨aluSubtract_toInt _ _, aluSubtract_toNat _ _⟩⟩

/-! ## Bits -/

theorem aluAnd_getLsbD (a b : Word) (k : Nat) :
    (aluAnd a b).getLsbD k = true ↔ a.getLsbD k = true ∧ b.getLsbD k = true := by
  rw [aluAnd, BitVec.getLsbD_and, Bool.and_eq_true]

theorem aluXor_getLsbD (a b : Word) (k : Nat) : (aluXor a b).getLsbD k = true ↔ a.getLsbD k ≠ b.getLsbD k := by
  rw [aluXor, BitVec.getLsbD_xor, bne_iff_ne]

/-- Settles O29: And has the shared shape, for the conjunction of each bit. -/
theorem andWritesTheCommonBits : Obligations.AndWritesTheCommonBits :=
  fun d x y => ⟨decode_digits .and d x y, fun _ => and_hasAluShape.exec_value d fun k _ => aluAnd_getLsbD _ _ k⟩

/-- Settles O30: Xor has the shared shape, for the difference of each bit. -/
theorem xorWritesTheDifferingBits : Obligations.XorWritesTheDifferingBits :=
  fun d x y => ⟨decode_digits .xor d x y, fun _ => xor_hasAluShape.exec_value d fun k _ => aluXor_getLsbD _ _ k⟩

/-! ## Shifts -/

theorem aluShiftLeft_toNat (a n : Word) : (aluShiftLeft a n).toNat = a.toNat * 2 ^ n.toNat % 0x10000 := by
  rw [aluShiftLeft, BitVec.toNat_ofNat, Nat.shiftLeft_eq]

theorem aluShiftRight_toNat (a n : Word) : (aluShiftRight a n).toNat = a.toNat / 2 ^ n.toNat := by
  rw [aluShiftRight_eq, BitVec.ushiftRight_eq', BitVec.toNat_ushiftRight, Nat.shiftRight_eq_div_pow]

/-- All 16 bits are shifted out at the left (R105; D7). -/
theorem aluShiftLeft_eq_zero (a : Word) {n : Word} (h : 16 ≤ n.toNat) : aluShiftLeft a n = 0x0000 := by
  rw [aluShiftLeft_eq]
  exact BitVec.shiftLeft_eq_zero h

/-- All 16 bits are shifted out at the right (R106; D7). -/
theorem aluShiftRight_eq_zero (a : Word) {n : Word} (h : 16 ≤ n.toNat) : aluShiftRight a n = 0x0000 := by
  rw [aluShiftRight_eq]
  exact BitVec.ushiftRight_eq_zero h

/-- Settles O31: ShiftLeft has the shared shape, for the product with a power of two. -/
theorem shiftLeftMultipliesByAPower : Obligations.ShiftLeftMultipliesByAPower :=
  fun d x y => ⟨decode_digits .shiftLeft d x y, fun _ =>
    shiftLeft_hasAluShape.exec_value d ⟨aluShiftLeft_toNat _ _, aluShiftLeft_eq_zero _⟩⟩

/-- Settles O32: ShiftRight has the shared shape, for the quotient by a power of two. -/
theorem shiftRightDividesByAPower : Obligations.ShiftRightDividesByAPower :=
  fun d x y => ⟨decode_digits .shiftRight d x y, fun _ =>
    shiftRight_hasAluShape.exec_value d ⟨aluShiftRight_toNat _ _, aluShiftRight_eq_zero _⟩⟩

/-! ## Aliasing -/

/-- A register written reads as the value written, unless it is register 0 (R12). -/
theorem WritesReg.reg_dest {d : RegIdx} {v : Word} {s t : State} (h : WritesReg d v s t) (hd : d ≠ 0) : t.reg d = v := by
  rw [h.regs, if_neg hd, if_pos rfl]

theorem exists_hasAluShape {make : RegIdx → RegIdx → RegIdx → Instr}
    (h : make ∈ [Instr.add, Instr.subtract, Instr.and, Instr.xor, Instr.shiftLeft, Instr.shiftRight]) : ∃ f, HasAluShape f make := by
  simp only [List.mem_cons, List.not_mem_nil, or_false] at h
  rcases h with rfl | rfl | rfl | rfl | rfl | rfl
  · exact ⟨_, add_hasAluShape⟩
  · exact ⟨_, subtract_hasAluShape⟩
  · exact ⟨_, and_hasAluShape⟩
  · exact ⟨_, xor_hasAluShape⟩
  · exact ⟨_, shiftLeft_hasAluShape⟩
  · exact ⟨_, shiftRight_hasAluShape⟩

/-- The result in the destination is the function of the sources as they were, whichever register the destination is (R109). -/
theorem HasAluShape.reg_dest {f : Word → Word → Word} {make : RegIdx → RegIdx → RegIdx → Instr} (h : HasAluShape f make)
    {d : RegIdx} (hd : d ≠ 0) (x y : RegIdx) (s : State) :
    ∃ t, Machine.exec (make d x y) s = .next t ∧ t.reg d = f (s.reg x) (s.reg y) := by
  obtain ⟨t, hexec, hwrites⟩ := h.exec d x y s
  exact ⟨t, hexec, hwrites.reg_dest hd⟩

/-- Settles O33: each of the six computes one function of the sources as they were. -/
theorem aluSourcesAreReadFirst : Obligations.AluSourcesAreReadFirst := by
  refine ⟨fun make hmake d x y s hd => ?_, fun r s hr => ⟨?_, ?_, ?_⟩⟩
  · obtain ⟨f, hshape⟩ := exists_hasAluShape hmake
    obtain ⟨u, hexec, hu⟩ := hshape.reg_dest hd x y s
    refine ⟨u, hexec, ?_⟩
    rw [hu]
    exact ⟨fun hx => hshape.reg_dest hx x y s, fun hy => hshape.reg_dest hy x y s⟩
  · obtain ⟨t, hexec, ht⟩ := add_hasAluShape.reg_dest hr r r s
    exact ⟨t, hexec, by rw [ht, aluAdd_toNat, Nat.two_mul]⟩
  · obtain ⟨t, hexec, ht⟩ := subtract_hasAluShape.reg_dest hr r r s
    exact ⟨t, hexec, ht.trans ((aluSubtract_eq _ _).trans (BitVec.sub_self _))⟩
  · obtain ⟨t, hexec, ht⟩ := xor_hasAluShape.reg_dest hr r r s
    exact ⟨t, hexec, ht.trans BitVec.xor_self⟩

end Sys2Proof.Machine

/-! PROOFS. The indirect accesses (43_load_store.md R113, R114) and the control transfers that write or test a register
(44_control.md R121 to R123). -/

namespace Sys2Proof.Machine

/-! ## Indirect accesses -/

/-- An indirect address above 0x00FF fails before any effect, with the whole register compared (R164; D4, D5). -/
theorem exec_outOfRange {i : Instr} {d r : RegIdx} {s : State} (hi : i = .loadIndirect d r ∨ i = .storeIndirect d r)
    (h : 0x00FF < (s.reg r).toNat) : exec i s = .fault (.outOfRange (s.reg r)) :=
  exec_eq_fault.2 (.inr ⟨d, r, hi, h, rfl⟩)

theorem cell_indirect (r : RegIdx) (s : State) : (AddrMode.indirect r).cell s = BitVec.ofNat 8 (s.reg r).toNat :=
  (BitVec.ofNat_toNat 8 (s.reg r)).symm

/-- Settles O37: by where `x[t]` stands to 0x00FF, LoadIndirect has an effect of its family or fails in the address check. -/
theorem loadIndirectWritesTheCellsWord : Obligations.LoadIndirectWritesTheCellsWord := by
  intro d r ignored
  have hload := loadIndirect_isLoad d r
  refine ⟨decode_digits .loadIndirect d ignored r, fun s => ⟨fun hbelow => ?_, fun hport hin => ?_, fun hport hwf v rest hin => ?_,
    fun habove => ?_⟩⟩
  · have hcell : ¬ Config.maxCell < (AddrMode.indirect r).effective s := Nat.not_lt.2 hbelow.le
    have hport : (AddrMode.indirect r).effective s ≠ Config.ioWord := fun h => hbelow.ne (congrArg BitVec.toNat h)
    rw [← cell_indirect]
    exact hload.writesReg hcell hport
  · exact hload.inputExhausted hport hin
  · exact hload.loadsInput hport hwf hin
  · exact exec_outOfRange (.inl rfl) habove

/-- Settles O38: up to 0x00FF StoreIndirect has the effect of its family, and above it fails in the address check. -/
theorem storeIndirectWritesTheCell : Obligations.StoreIndirectWritesTheCell := by
  intro d r ignored
  refine ⟨decode_digits .storeIndirect d ignored r, fun s => ⟨fun hle hwf => ⟨?_, ?_⟩, fun habove => ?_⟩⟩
  · rw [cell_indirect, BitVec.toNat_ofNat]
    exact Nat.mod_eq_of_lt (Nat.lt_succ_of_le hle)
  · exact (storeIndirect_isStore d r).storesWord hwf (Nat.not_lt.2 hle)
  · exact exec_outOfRange (.inr rfl) habove

/-! ## Branch, call and return -/

/-- Settles O40: BranchPositive accesses no memory and assigns `pc` by a condition that is the complement of being 0. -/
theorem branchPositiveTakenOnNonZero : Obligations.BranchPositiveTakenOnNonZero := by
  intro d a
  refine ⟨decode_digitsAddress .branchPositive d a, fun s => ?_⟩
  rw [← ite_not]
  simp only [← isPositive_iff_ne_zero]
  exact exec_setsPc rfl (applyBranch_eq_setPc isPositive d a s)

/-- What JumpAndLink leaves: the register write of the link, with `pc` at the target instead (R123). -/
theorem exec_jumpAndLink (d : RegIdx) (a : Addr) (s : State) :
    exec (.jumpAndLink d a) s = .next ((s.setReg d (zext16 s.pc)).normalise.setPc a) := rfl

/-- Settles O42: the link is the `pc` of the execute phase, written as any register is. -/
theorem jumpAndLinkLinksTheNextAddress : Obligations.JumpAndLinkLinksTheNextAddress := by
  intro d a
  refine ⟨decode_digitsAddress .jumpAndLink d a, fun s => ?_⟩
  have hlink := normalise_setReg_writesReg d (zext16 s.pc) s
  exact ⟨_, zext16 s.pc, exec_jumpAndLink d a s, hlink.regs, zext16_toNat s.pc, rfl, hlink.cells, hlink.running, hlink.stream⟩

/-- Settles O43: the low byte of the link is the address that was linked. -/
theorem returnGoesBehindTheCall : Obligations.ReturnGoesBehindTheCall := by
  intro d a s t u hd hcall hlink
  obtain ⟨-, hjump⟩ := jumpAndLinkLinksTheNextAddress d a
  obtain ⟨t', link, hcall', hregs, hvalue, -⟩ := hjump s
  obtain rfl : t' = t := Host.Outcome.next.inj (hcall'.symm.trans hcall)
  have hreg : (u.reg d).toNat = s.pc.toNat := by rw [hlink, hregs, if_neg hd, if_pos rfl, hvalue]
  obtain ⟨-, htarget⟩ := cellOf_eq_of_toNat_eq hreg
  obtain ⟨v, hreturn, hsets⟩ := exec_setsPc (i := .jumpRegister d) (s := u) rfl rfl
  exact ⟨v, hreturn, hsets.pc.trans htarget⟩

/-! ## Idioms -/

/-- A write to register 0 is discarded: nothing is left of it but the normalisation (R12). -/
theorem WritesReg.setsPc_of_zero {v : Word} {s t : State} (h : WritesReg 0 v s t) : SetsPc s.pc s t where
  regs := by
    intro r
    rw [h.regs]
    split <;> rfl
  pc := h.pc
  cells := h.cells
  running := h.running
  stream := h.stream

/-- Settles O44: each idiom decodes to an instruction whose effect, with `x[0]` = 0 or its operands as given, is the one named. -/
theorem idiomsDoWhatTheyName : Obligations.IdiomsDoWhatTheyName := by
  intro s hzero d x a
  refine ⟨?jump, ?noOperation, ?neverTaken, ?move, ?clearByAddress, ?clearByXor, fun htarget => ?jumpBack, ?readWord, ?writeWord⟩
  case jump =>
    obtain ⟨hdecode, hbranch⟩ := branchZeroTakenOnZero 0 a
    rw [hdecode]
    simpa [hzero] using hbranch s
  case noOperation =>
    obtain ⟨t, hexec, hwrites⟩ := add_hasAluShape.exec 0 0 0 s
    exact ⟨t, hexec, hwrites.setsPc_of_zero⟩
  case neverTaken =>
    obtain ⟨hdecode, hbranch⟩ := branchPositiveTakenOnNonZero 0 a
    rw [hdecode]
    simpa [hzero] using hbranch s
  case move =>
    obtain ⟨hdecode, -⟩ := addWritesTheWrappedSum d x 0
    have hsum : aluAdd (s.reg x) (s.reg 0) = s.reg x := by rw [hzero, aluAdd_eq]; exact BitVec.add_zero _
    have hadd := add_hasAluShape.exec d x 0 s
    rwa [hsum, ← hdecode] at hadd
  case clearByAddress =>
    have hdecode : decode (digits 0x7 d 0 0) = .loadAddress d 0x00 := decode_digits .loadAddress d 0 0
    rw [hdecode]
    exact exec_writesReg rfl rfl
  case clearByXor =>
    obtain ⟨hdecode, -⟩ := xorWritesTheDifferingBits d d d
    have hxor := xor_hasAluShape.exec d d d s
    rwa [aluXor, BitVec.xor_self, ← hdecode] at hxor
  case jumpBack =>
    have hdecode : decode (digits 0xE d 0 0) = .jumpRegister d := decode_digits .jumpRegister d 0 0
    obtain ⟨-, hcell⟩ := cellOf_eq_of_toNat_eq htarget
    rw [hdecode, ← hcell]
    exact exec_setsPc rfl rfl
  case readWord =>
    intro hwf v rest hin
    obtain ⟨hdecode, hload⟩ := loadWritesTheCellsWord d 0xFF
    obtain ⟨-, -, hport⟩ := hload s
    rw [hdecode]
    exact hport rfl hwf v rest hin
  case writeWord =>
    intro hwf
    obtain ⟨hdecode, hstore⟩ := storeWritesTheCell d 0xFF
    rw [hdecode]
    exact hstore s hwf

end Sys2Proof.Machine

/-! PROOFS. The host's operations on a state (50_interfaces.md R132 to R138, 60_exceptions.md R182). -/

namespace Sys2Proof.Machine

/-! ## RESET -/

theorem reset_reg (r : RegIdx) : State.reset.reg r = 0x0000 :=
  Vector.getElem_replicate r.isLt

/-- Settles O17: the two states are the same but for the stream, which RESET takes over. -/
theorem resetLeavesEverythingZero : Obligations.ResetLeavesEverythingZero := by
  rintro s t (rfl | rfl)
  · exact ⟨rfl, reset_reg, fun _ => rfl, rfl, rfl, rfl⟩
  · exact ⟨rfl, reset_reg, fun _ => rfl, rfl, rfl, rfl⟩

/-! ## SET_REG -/

theorem hostSetReg_zero (s : State) (v : Word) : hostSetReg s 0 v = s :=
  if_pos rfl

theorem hostSetReg_of_ne {i : RegIdx} (h : i ≠ 0) (s : State) (v : Word) : hostSetReg s i v = s.setReg i v :=
  if_neg h

/-- Settles O50: for register 0 nothing happens, and for another the one write. -/
theorem setRegWritesAllButRegisterZero : Obligations.SetRegWritesAllButRegisterZero := by
  intro s i v
  refine ⟨hostSetReg s i v, rfl, ?_⟩
  by_cases hi : i = 0
  · subst hi
    rw [hostSetReg_zero]
    exact ⟨fun r => (if_neg fun h => h.2 h.1).symm, rfl, fun _ => rfl, rfl, rfl, rfl⟩
  · rw [hostSetReg_of_ne hi]
    refine ⟨fun r => ?_, rfl, fun _ => rfl, rfl, rfl, rfl⟩
    have hr : r = i ∧ r ≠ 0 ↔ r = i := and_iff_left_of_imp fun h => h ▸ hi
    simp only [setReg_reg, hr]

/-! ## LOAD -/

theorem hostLoad_cons (s : State) (p : Addr × Word) (pairs : List (Addr × Word)) :
    hostLoad s (p :: pairs) = hostLoad (s.memWrite p.1 p.2) pairs := rfl

/-- Of the pairs for a cell the last one stands. -/
theorem hostLoad_memRead {s : State} (hwf : s.mem.wf) (pairs : List (Addr × Word)) (a : Addr) :
    (hostLoad s pairs).memRead a = (pairs.reverse.lookup a).getD (s.memRead a) := by
  induction pairs generalizing s with
  | nil => rfl
  | cons p pairs ih =>
    obtain ⟨b, v⟩ := p
    have hlookup : (List.lookup a [(b, v)]).getD (s.memRead a) = (s.memWrite b v).memRead a := by
      rw [memWrite_memRead hwf, List.lookup_cons]
      by_cases ha : a = b
      · simp [ha]
      · rw [beq_eq_false_iff_ne.2 ha, if_neg ha]
        rfl
    rw [hostLoad_cons, ih (memWrite_wf hwf b v), ← hlookup, List.reverse_cons, List.lookup_append]
    cases List.lookup a pairs.reverse <;> rfl

/-- LOAD touches memory only. -/
theorem hostLoad_frame (s : State) (pairs : List (Addr × Word)) :
    (hostLoad s pairs).pc = s.pc ∧ (hostLoad s pairs).regs = s.regs ∧ (hostLoad s pairs).running = s.running := by
  induction pairs generalizing s with
  | nil => exact ⟨rfl, rfl, rfl⟩
  | cons p pairs ih => exact ih (s.memWrite p.1 p.2)

/-- Settles O51: the writes one after the other, a later one over an earlier one of the same cell. -/
theorem loadLeavesTheLastPair : Obligations.LoadLeavesTheLastPair := by
  intro s pairs hwf
  obtain ⟨hpc, hregs, hrunning⟩ := hostLoad_frame s pairs
  exact ⟨hostLoad s pairs, rfl, hostLoad_memRead hwf pairs, reg_of_regs_eq hregs, hpc, hrunning, hostLoad_sameStream pairs s⟩

/-! ## OBSERVE -/

theorem hostObserve_cells_getElem? (s : State) (a : Addr) : (hostObserve s).cells[a.toNat]? = some (s.memRead a) := by
  have ha : a.toNat < Config.memSize := a.isLt
  rw [hostObserve, List.getElem?_map, List.getElem?_range ha]
  rfl

/-- Settles O52: the items are copied, the cells in the order of their numbers. -/
theorem observeReadsEverything : Obligations.ObserveReadsEverything := by
  intro s
  have hlength : (hostObserve s).cells.length = 256 := by
    rw [hostObserve, List.length_map, List.length_range]
    rfl
  exact ⟨hostObserve s, rfl, rfl, fun _ => rfl, hlength, hostObserve_cells_getElem? s, rfl⟩

/-! ## The Halted machine under every operation -/

theorem hostSetReg_running (s : State) (i : RegIdx) (v : Word) : (hostSetReg s i v).running = s.running := by
  rw [hostSetReg]
  split <;> rfl

/-- A Halted machine stays so under every operation that can take place but SET_RUNNING(1). -/
theorem hostOp_running_of_halted {op : HostOp} {s : State} (hop : op ≠ .setRunning true) (h : s.running = false) :
    (hostOp op s).2.running = false := by
  cases op with
  | reset => rfl
  | setReg i v => exact (hostSetReg_running s i v).trans h
  | load pairs =>
    obtain ⟨-, -, hrunning⟩ := hostLoad_frame s pairs
    exact hrunning.trans h
  | setRunning b =>
    cases b with
    | false => rfl
    | true => exact absurd rfl hop
  | step => simp only [hostOp, stepRequest_of_halted h, h]
  | run fuel => simp only [hostOp, runFor_of_halted h, h]
  | getPc | setPc | getRunning | observe => exact h

theorem streamOp_running (op : StreamOp) (s : State) : (streamOp op s).2.running = s.running := by
  cases op <;> rfl

/-- A host operation changes the session's state as it changes a machine's, if it takes place. -/
theorem externalOp_host_state (op : HostOp) (z : Session) :
    (externalOp (.host op) z).2.state = z.state ∨ (externalOp (.host op) z).2.state = (hostOp op z.state).2 := by
  cases h : z.inRun
  · exact .inr (by rw [externalOp_host h, Session.settle_state])
  · exact .inl (by rw [externalOp_host_inRun h])

/-- The further steps of a RUN change it as a RUN's steps do, if they take place. -/
theorem externalOp_goOn_state (fuel : Nat) (z : Session) :
    (externalOp (.goOn fuel) z).2.state = z.state ∨ (externalOp (.goOn fuel) z).2.state = (hostOp (.run fuel) z.state).2 := by
  cases h : z.inRun
  · exact .inl (by simp [externalOp, h])
  · exact .inr (by rw [externalOp_goOn h, Session.settle_state])

theorem externalOp_host_state_eq {op : HostOp} {z : Session} (h : (hostOp op z.state).2 = z.state) :
    (externalOp (.host op) z).2.state = z.state :=
  (externalOp_host_state op z).elim id (·.trans h)

theorem hostOp_run_state_of_halted {s : State} (h : s.running = false) (fuel : Nat) : (hostOp (.run fuel) s).2 = s := by
  simp only [hostOp, runFor_of_halted h]

theorem externalOp_goOn_state_of_halted {z : Session} (h : z.state.running = false) (fuel : Nat) :
    (externalOp (.goOn fuel) z).2.state = z.state :=
  (externalOp_goOn_state fuel z).elim id (·.trans (hostOp_run_state_of_halted h fuel))

theorem externalOp_running_of_halted {op : ExternalOp} {z : Session} (hop : op ≠ .host (.setRunning true))
    (h : z.state.running = false) : (externalOp op z).2.state.running = false := by
  cases op with
  | host o =>
    rcases externalOp_host_state o z with hz | hz <;> rw [hz]
    · exact h
    · exact hostOp_running_of_halted (fun ho => hop (congrArg _ ho)) h
  | stream o => exact (streamOp_running o z.state).trans h
  | goOn fuel => rw [externalOp_goOn_state_of_halted h, h]

/-- Settles O49: no other operation sets the flag, and those named change nothing while it is 0. -/
theorem onlySetRunningWakesTheMachine : Obligations.OnlySetRunningWakesTheMachine := by
  refine fun z op h => ⟨fun hop => externalOp_running_of_halted hop h, ?_, ?_⟩
  · rintro (rfl | ⟨fuel, rfl | rfl⟩ | rfl | rfl | rfl | rfl | rfl)
    · exact externalOp_host_state_eq (by simp only [hostOp, stepRequest_of_halted h])
    · exact externalOp_host_state_eq (hostOp_run_state_of_halted h fuel)
    · exact externalOp_goOn_state_of_halted h fuel
    · exact externalOp_host_state_eq (State.ext_fields rfl rfl rfl h.symm rfl rfl)
    · exact externalOp_host_state_eq rfl
    · exact externalOp_host_state_eq rfl
    · exact externalOp_host_state_eq rfl
    · rfl
  · rintro words rfl
    rfl

end Sys2Proof.Machine

/-! PROOFS. RUN (40_step_cycle.md R86; 50_interfaces.md R131; D17). A watched RUN goes on with the state that a continued step
leaves and ends with any other result; watching on from where the watching stopped is watching longer. -/

namespace Sys2Proof.Machine

/-- What watching a RUN for one more step comes to. -/
theorem runFor_succ_cases (s : State) :
    (∃ t, stepRequest s = (.continued, t) ∧ ∀ fuel, runFor (fuel + 1) s = runFor fuel t) ∨
    ∃ r t, stepRequest s = (r, t) ∧ r ≠ .continued ∧ ∀ fuel, runFor (fuel + 1) s = (some r, t) := by
  rcases h : stepRequest s with ⟨r, t⟩
  by_cases hr : r = .continued
  · subst hr
    exact .inl ⟨t, rfl, fun fuel => by simp only [runFor, h]⟩
  · refine .inr ⟨r, t, rfl, hr, fun fuel => ?_⟩
    simp only [runFor, h]

/-- A RUN watched for no step has a result only if the machine is Halted. -/
theorem runFor_zero_eq {s t : State} {r : Option StepResult} (h : runFor 0 s = (r, t)) :
    t = s ∧ ((s.running = true ∧ r = none) ∨ (s.running = false ∧ r = some .idle)) := by
  cases hrun : s.running with
  | false =>
    rw [runFor_of_halted hrun] at h
    cases h
    exact ⟨rfl, .inr ⟨rfl, rfl⟩⟩
  | true =>
    rw [runFor, if_pos hrun] at h
    cases h
    exact ⟨rfl, .inl ⟨rfl, rfl⟩⟩

/-- A result once there stays, however long the RUN is watched. -/
theorem runFor_add_of_some {m : Nat} {s t : State} {r : StepResult} (h : runFor m s = (some r, t)) (n : Nat) :
    runFor (m + n) s = (some r, t) := by
  induction m generalizing s with
  | zero =>
    obtain ⟨rfl, ⟨-, hr⟩ | ⟨hrun, hr⟩⟩ := runFor_zero_eq h
    · cases hr
    · rw [runFor_of_halted hrun, hr]
  | succ m ih =>
    rw [Nat.add_right_comm]
    rcases runFor_succ_cases s with ⟨u, -, hgoes⟩ | ⟨q, u, -, -, hends⟩
    · rw [hgoes] at h ⊢
      exact ih h
    · rw [hends] at h ⊢
      exact h

/-- Without a result the RUN goes on from the state reached. -/
theorem runFor_add_of_none {m : Nat} {s t : State} (h : runFor m s = (none, t)) (n : Nat) : runFor (m + n) s = runFor n t := by
  induction m generalizing s with
  | zero =>
    obtain ⟨rfl, -⟩ := runFor_zero_eq h
    rw [Nat.zero_add]
  | succ m ih =>
    rw [Nat.add_right_comm]
    rcases runFor_succ_cases s with ⟨u, -, hgoes⟩ | ⟨q, u, -, -, hends⟩
    · rw [hgoes] at h ⊢
      exact ih h
    · rw [hends] at h
      cases h

/-- Settles O53: the result of either watching is there in one long enough for both. -/
theorem runResultIsUnique : Obligations.RunResultIsUnique := by
  rintro s t u r q ⟨m, hm⟩ ⟨n, hn⟩
  have hboth : (some r, t) = (some q, u) := by
    rw [← runFor_add_of_some hm n, Nat.add_comm, runFor_add_of_some hn m]
  cases hboth
  exact ⟨rfl, rfl⟩

/-! ## How a RUN ends -/

theorem running_of_continued {s t : State} (h : stepRequest s = (.continued, t)) : s.running = true ∧ t.running = true := by
  rcases stepRequestReportsOneOfFourResults s with ⟨-, hr⟩ | ⟨hrun, -, u, -, hu, hr⟩ | ⟨-, -, hr⟩ | ⟨-, e, -, hr⟩ <;>
    rw [hr] at h <;> cases h
  exact ⟨hrun, hu⟩

/-- A result that ends a RUN is Idle, Halted or Failed, each with the state that R85 gives it. -/
theorem stepRequest_ne_continued {s t : State} {r : StepResult} (h : stepRequest s = (r, t)) (hr : r ≠ .continued) :
    (r = .halted ∧ s.running = true ∧ t.running = false) ∨ (∃ e, r = .failed e ∧ t.running = true ∧ step t = .fault e) ∨
    (r = .idle ∧ s.running = false ∧ t = s) := by
  rcases stepRequestReportsOneOfFourResults s with ⟨hrun, hs⟩ | ⟨-, -, u, -, -, hs⟩ | ⟨hrun, -, hs⟩ | ⟨hrun, e, hstep, hs⟩ <;>
    rw [hs] at h <;> cases h
  · exact .inr (.inr ⟨rfl, hrun, rfl⟩)
  · exact absurd rfl hr
  · exact .inl ⟨rfl, hrun, rfl⟩
  · exact .inr (.inl ⟨e, rfl, hrun, hstep⟩)

/-- Settles O54: by induction over the watching; a continued step leaves the machine Running, so that Idle is a first result. -/
theorem runEndsByHaltOrFailure : Obligations.RunEndsByHaltOrFailure := by
  rintro s t r ⟨fuel, h⟩
  induction fuel generalizing s with
  | zero =>
    obtain ⟨rfl, ⟨-, hr⟩ | ⟨hrun, hr⟩⟩ := runFor_zero_eq h <;> cases hr
    exact .inr (.inr ⟨rfl, hrun, rfl⟩)
  | succ fuel ih =>
    rcases runFor_succ_cases s with ⟨u, hstep, hgoes⟩ | ⟨q, u, hstep, hq, hends⟩
    · rw [hgoes] at h
      obtain ⟨hs, hu⟩ := running_of_continued hstep
      rcases ih u h with ⟨hr, -, ht⟩ | hfailed | ⟨-, hidle, -⟩
      · exact .inl ⟨hr, hs, ht⟩
      · exact .inr (.inl hfailed)
      · rw [hu] at hidle
        cases hidle
    · rw [hends] at h
      cases h
      exact stepRequest_ne_continued hstep hq

/-- While a RUN has not returned the machine is Running. -/
theorem running_of_runFor_none {m : Nat} {s t : State} (h : runFor m s = (none, t)) : t.running = true := by
  by_contra ht
  have hgoes := runFor_add_of_none h 0
  rw [Nat.add_zero, h, runFor_of_halted (Bool.eq_false_iff.2 ht)] at hgoes
  cases hgoes

/-! ## RUN in a session -/

theorem hostOp_run {fuel : Nat} {s t : State} {r : Option StepResult} (h : runFor fuel s = (r, t)) :
    hostOp (.run fuel) s = (.ran r, t) := by
  rw [hostOp, h]

/-- A RUN that has not returned leaves the session waiting for it (R131). -/
theorem externalOp_run_of_none {m : Nat} {s t : State} (h : runFor m s = (none, t)) :
    externalOp (.host (.run m)) (.ready s) = (.ran none, ⟨t, true⟩) := by
  rw [externalOp_host (Session.ready_inRun s), Session.ready_state, hostOp_run h]
  rfl

/-- Settles O55: a RUN without a result is the one operation after which the session is not ready, and going on with it is
watching it longer. -/
theorem runHoldsOffTheHost : Obligations.RunHoldsOffTheHost := by
  refine ⟨fun z op hz => externalOp_host_inRun hz op, fun op s => ?_, fun s t m n h => ⟨running_of_runFor_none h, ?_⟩⟩
  · rw [externalOp_host (Session.ready_inRun s), Session.settle_inRun, decide_eq_true_iff, ← hostOp_ran_none]
    exact ⟨rfl, rfl, Iff.rfl⟩
  · have hwaiting : (⟨t, true⟩ : Session).inRun = true := rfl
    rw [externalOp_run_of_none h, externalOp_goOn hwaiting, externalOp_host (Session.ready_inRun s), hostOp, hostOp,
      Session.ready_state, runFor_add_of_none h]

end Sys2Proof.Machine
